-- ==== Sys2Proof/Word.lean ====
section
/-! DEFINITION. The widths of this hardware: the byte, the 16-bit word, and the register index. -/

namespace Sys2Proof

/-- An 8-bit value: a memory cell, a general register, a timer (`10_state.md` R20, R26, R27, R32). -/
abbrev Byte := BitVec 8

/-- A 16-bit value: the instruction word, `PC`, `I`, a call-stack slot (`10_state.md` R22 to R24). -/
abbrev Word := BitVec 16

/-- The index of a general register or of a key: 0 to 15 (`10_state.md` R20, R30). -/
abbrev Reg := Fin 16

end Sys2Proof
end

