-- ==== Sys2Proof/Syntax.lean ====
section
/-! DEFINITION. The 34 instructions of `30_encoding.md` R74, one constructor per row, in the order of the table. -/

namespace Sys2Proof

/-- One instruction with its operands (`30_encoding.md` R72, R73): `x`, `y` are register indices, `nn` a byte, `nnn` a
12-bit address, `n` a row count. The fields' types hold every operand to its width but for the row count of `DXYN`, a
number whose bound `WellFormed.lean` checks. -/
inductive Instr where
  /-- `00E0` CLS -/
  | cls
  /-- `00EE` RET -/
  | ret
  /-- `1NNN` JP -/
  | jp (nnn : BitVec 12)
  /-- `2NNN` CALL -/
  | call (nnn : BitVec 12)
  /-- `3XNN` SE.I -/
  | seImm (x : Reg) (nn : Byte)
  /-- `4XNN` SNE.I -/
  | sneImm (x : Reg) (nn : Byte)
  /-- `5XY0` SE.R -/
  | seReg (x y : Reg)
  /-- `6XNN` LD.I -/
  | ldImm (x : Reg) (nn : Byte)
  /-- `7XNN` ADD.I -/
  | addImm (x : Reg) (nn : Byte)
  /-- `8XY0` LD.R -/
  | ldReg (x y : Reg)
  /-- `8XY1` OR -/
  | orReg (x y : Reg)
  /-- `8XY2` AND -/
  | andReg (x y : Reg)
  /-- `8XY3` XOR -/
  | xorReg (x y : Reg)
  /-- `8XY4` ADD.R -/
  | addReg (x y : Reg)
  /-- `8XY5` SUB -/
  | sub (x y : Reg)
  /-- `8XY6` SHR; the `Y` digit is decoded and ignored (R80) -/
  | shr (x y : Reg)
  /-- `8XY7` SUBN -/
  | subn (x y : Reg)
  /-- `8XYE` SHL; the `Y` digit is decoded and ignored (R80) -/
  | shl (x y : Reg)
  /-- `9XY0` SNE.R -/
  | sneReg (x y : Reg)
  /-- `ANNN` LD.IDX -/
  | ldIdx (nnn : BitVec 12)
  /-- `BNNN` JP.V0 -/
  | jpV0 (nnn : BitVec 12)
  /-- `CXNN` RND -/
  | rnd (x : Reg) (nn : Byte)
  /-- `DXYN` DRW -/
  | drw (x y : Reg) (n : Nat)
  /-- `EX9E` SKP -/
  | skp (x : Reg)
  /-- `EXA1` SKNP -/
  | sknp (x : Reg)
  /-- `FX07` LD.VX.DT -/
  | ldVxDt (x : Reg)
  /-- `FX0A` LD.VX.K -/
  | ldVxK (x : Reg)
  /-- `FX15` LD.DT.VX -/
  | ldDtVx (x : Reg)
  /-- `FX18` LD.ST.VX -/
  | ldStVx (x : Reg)
  /-- `FX1E` ADD.IDX -/
  | addIdx (x : Reg)
  /-- `FX29` LD.F -/
  | ldF (x : Reg)
  /-- `FX33` LD.B -/
  | ldB (x : Reg)
  /-- `FX55` ST.REGS -/
  | stRegs (x : Reg)
  /-- `FX65` LD.REGS -/
  | ldRegs (x : Reg)
  deriving DecidableEq, Repr

end Sys2Proof
end

