-- ==== Sys2Proof/WellFormed.lean ====
section
/-! DEFINITION. When an instruction's operands fit the fields of its encoding (`30_encoding.md` R72, R73). -/

namespace Sys2Proof

/-- `N` is a row count 0 to 15 (R73): the one operand that its type does not already hold to its field. -/
def Instr.wellFormed : Instr → Bool
  | .drw _ _ n => n < 16
  | .cls | .ret | .jp _ | .call _ | .seImm _ _ | .sneImm _ _ | .seReg _ _ | .ldImm _ _ | .addImm _ _ => true
  | .ldReg _ _ | .orReg _ _ | .andReg _ _ | .xorReg _ _ | .addReg _ _ | .sub _ _ | .shr _ _ | .subn _ _ => true
  | .shl _ _ | .sneReg _ _ | .ldIdx _ | .jpV0 _ | .rnd _ _ | .skp _ | .sknp _ | .ldVxDt _ | .ldVxK _ => true
  | .ldDtVx _ | .ldStVx _ | .addIdx _ | .ldF _ | .ldB _ | .stRegs _ | .ldRegs _ => true

end Sys2Proof
end

