-- ==== Sys2Proof/Decode.lean ====
section
/-! DEFINITION. The decoder of `30_encoding.md` R75, total on every word and on every list of bytes, and the encoder written
from the formats of R71 and the table R74. -/

namespace Sys2Proof

/-- Why bytes are no instruction: fewer than the two bytes of one word, or a word no row of R74 matches (R76). -/
inductive DecodeError where
  | truncated
  | unknownOpcode (op : Word)
  deriving DecidableEq, Repr

/-! ### Fields (`00_scope.md` R7, `30_encoding.md` R72) -/

/-- `G = op[15:12]`. -/
def fieldG (op : Word) : BitVec 4 := op.extractLsb' 12 4
/-- `X = op[11:8]`, as a register index. -/
def fieldX (op : Word) : Reg := (op.extractLsb' 8 4).toFin
/-- `Y = op[7:4]`, as a register index. -/
def fieldY (op : Word) : Reg := (op.extractLsb' 4 4).toFin
/-- `N = op[3:0]`. -/
def fieldN (op : Word) : BitVec 4 := op.extractLsb' 0 4
/-- `NN = op[7:0]`. -/
def fieldNN (op : Word) : Byte := op.extractLsb' 0 8
/-- `NNN = op[11:0]`. -/
def fieldNNN (op : Word) : BitVec 12 := op.extractLsb' 0 12

/-! ### The decoder -/

/-- Group 0x0 is matched on the whole word (R75). -/
def decodeGroup0 (op : Word) : Except DecodeError Instr :=
  if op = 0x00E0 then .ok .cls else if op = 0x00EE then .ok .ret else .error (.unknownOpcode op)

/-- Group 0x8 is told apart by its low nibble (R75). -/
def decodeGroup8 (op : Word) : Except DecodeError Instr :=
  match (fieldN op).toNat with
  | 0x0 => .ok (.ldReg (fieldX op) (fieldY op))
  | 0x1 => .ok (.orReg (fieldX op) (fieldY op))
  | 0x2 => .ok (.andReg (fieldX op) (fieldY op))
  | 0x3 => .ok (.xorReg (fieldX op) (fieldY op))
  | 0x4 => .ok (.addReg (fieldX op) (fieldY op))
  | 0x5 => .ok (.sub (fieldX op) (fieldY op))
  | 0x6 => .ok (.shr (fieldX op) (fieldY op))
  | 0x7 => .ok (.subn (fieldX op) (fieldY op))
  | 0xE => .ok (.shl (fieldX op) (fieldY op))
  | _ => .error (.unknownOpcode op)

/-- Group 0xE is told apart by its low byte (R75). -/
def decodeGroupE (op : Word) : Except DecodeError Instr :=
  match (fieldNN op).toNat with
  | 0x9E => .ok (.skp (fieldX op))
  | 0xA1 => .ok (.sknp (fieldX op))
  | _ => .error (.unknownOpcode op)

/-- Group 0xF is told apart by its low byte (R75). -/
def decodeGroupF (op : Word) : Except DecodeError Instr :=
  match (fieldNN op).toNat with
  | 0x07 => .ok (.ldVxDt (fieldX op))
  | 0x0A => .ok (.ldVxK (fieldX op))
  | 0x15 => .ok (.ldDtVx (fieldX op))
  | 0x18 => .ok (.ldStVx (fieldX op))
  | 0x1E => .ok (.addIdx (fieldX op))
  | 0x29 => .ok (.ldF (fieldX op))
  | 0x33 => .ok (.ldB (fieldX op))
  | 0x55 => .ok (.stRegs (fieldX op))
  | 0x65 => .ok (.ldRegs (fieldX op))
  | _ => .error (.unknownOpcode op)

/-- The decoder of R75 on one word. The last arm is never taken: `G` has four bits. -/
def decodeWord (op : Word) : Except DecodeError Instr :=
  match (fieldG op).toNat with
  | 0x0 => decodeGroup0 op
  | 0x1 => .ok (.jp (fieldNNN op))
  | 0x2 => .ok (.call (fieldNNN op))
  | 0x3 => .ok (.seImm (fieldX op) (fieldNN op))
  | 0x4 => .ok (.sneImm (fieldX op) (fieldNN op))
  | 0x5 => if fieldN op = 0 then .ok (.seReg (fieldX op) (fieldY op)) else .error (.unknownOpcode op)
  | 0x6 => .ok (.ldImm (fieldX op) (fieldNN op))
  | 0x7 => .ok (.addImm (fieldX op) (fieldNN op))
  | 0x8 => decodeGroup8 op
  | 0x9 => if fieldN op = 0 then .ok (.sneReg (fieldX op) (fieldY op)) else .error (.unknownOpcode op)
  | 0xA => .ok (.ldIdx (fieldNNN op))
  | 0xB => .ok (.jpV0 (fieldNNN op))
  | 0xC => .ok (.rnd (fieldX op) (fieldNN op))
  | 0xD => .ok (.drw (fieldX op) (fieldY op) (fieldN op).toNat)
  | 0xE => decodeGroupE op
  | 0xF => decodeGroupF op
  | _ => .error (.unknownOpcode op)

/-- One word from two bytes, the first the high byte (`20_memory.md` R52, `30_encoding.md` R70). -/
def wordOfBytes (hi lo : Byte) : Word := hi ++ lo

/-- The first instruction of a list of bytes, with the bytes after it. -/
def decode : List Byte → Except DecodeError (Instr × List Byte)
  | hi :: lo :: rest =>
    match decodeWord (wordOfBytes hi lo) with
    | .ok i => .ok (i, rest)
    | .error e => .error e
  | _ => .error .truncated

/-! ### The encoder (`30_encoding.md` R71: the word is four hexadecimal digits `d3 d2 d1 d0`) -/

/-- A register index as one hexadecimal digit. -/
def digit (r : Reg) : BitVec 4 := BitVec.ofFin r

/-- Format A: group, `NNN`. -/
def formatA (g : BitVec 4) (nnn : BitVec 12) : Word := g ++ nnn
/-- Format XB: group, `X`, `NN`. -/
def formatXB (g : BitVec 4) (x : Reg) (nn : Byte) : Word := g ++ digit x ++ nn
/-- Formats XY and XYN: group, `X`, `Y`, function or row count. -/
def formatXYN (g : BitVec 4) (x y : Reg) (n : BitVec 4) : Word := g ++ digit x ++ digit y ++ n
/-- Format XF: group, `X`, function. -/
def formatXF (g : BitVec 4) (x : Reg) (f : Byte) : Word := g ++ digit x ++ f

/-- The word of an instruction (R74). -/
def encodeWord : Instr → Word
  | .cls => 0x00E0
  | .ret => 0x00EE
  | .jp nnn => formatA 0x1 nnn
  | .call nnn => formatA 0x2 nnn
  | .seImm x nn => formatXB 0x3 x nn
  | .sneImm x nn => formatXB 0x4 x nn
  | .seReg x y => formatXYN 0x5 x y 0x0
  | .ldImm x nn => formatXB 0x6 x nn
  | .addImm x nn => formatXB 0x7 x nn
  | .ldReg x y => formatXYN 0x8 x y 0x0
  | .orReg x y => formatXYN 0x8 x y 0x1
  | .andReg x y => formatXYN 0x8 x y 0x2
  | .xorReg x y => formatXYN 0x8 x y 0x3
  | .addReg x y => formatXYN 0x8 x y 0x4
  | .sub x y => formatXYN 0x8 x y 0x5
  | .shr x y => formatXYN 0x8 x y 0x6
  | .subn x y => formatXYN 0x8 x y 0x7
  | .shl x y => formatXYN 0x8 x y 0xE
  | .sneReg x y => formatXYN 0x9 x y 0x0
  | .ldIdx nnn => formatA 0xA nnn
  | .jpV0 nnn => formatA 0xB nnn
  | .rnd x nn => formatXB 0xC x nn
  | .drw x y n => formatXYN 0xD x y (BitVec.ofNat 4 n)
  | .skp x => formatXF 0xE x 0x9E
  | .sknp x => formatXF 0xE x 0xA1
  | .ldVxDt x => formatXF 0xF x 0x07
  | .ldVxK x => formatXF 0xF x 0x0A
  | .ldDtVx x => formatXF 0xF x 0x15
  | .ldStVx x => formatXF 0xF x 0x18
  | .addIdx x => formatXF 0xF x 0x1E
  | .ldF x => formatXF 0xF x 0x29
  | .ldB x => formatXF 0xF x 0x33
  | .stRegs x => formatXF 0xF x 0x55
  | .ldRegs x => formatXF 0xF x 0x65

/-- The two bytes of a word, high byte first (R70). -/
def bytesOfWord (op : Word) : List Byte := [op.extractLsb' 8 8, op.extractLsb' 0 8]

/-- The bytes of an instruction as memory holds them. -/
def encode (i : Instr) : List Byte := bytesOfWord (encodeWord i)

/-! ### The opcode table (`30_encoding.md` R74) -/

/-- A row of R74: a word `op` is the row's instruction exactly when `op AND mask = pattern`. -/
structure OpRow where
  mnemonic : String
  mask : Word
  pattern : Word
  deriving DecidableEq, Repr

/-- Whether a word matches a row (R74). -/
def OpRow.Matches (r : OpRow) (op : Word) : Prop := op &&& r.mask = r.pattern

/-- The 34 rows of R74, in its order. -/
def opcodeTable : List OpRow :=
  [⟨"CLS", 0xFFFF, 0x00E0⟩, ⟨"RET", 0xFFFF, 0x00EE⟩, ⟨"JP", 0xF000, 0x1000⟩, ⟨"CALL", 0xF000, 0x2000⟩, ⟨"SE.I", 0xF000, 0x3000⟩, ⟨"SNE.I", 0xF000, 0x4000⟩] ++
  [⟨"SE.R", 0xF00F, 0x5000⟩, ⟨"LD.I", 0xF000, 0x6000⟩, ⟨"ADD.I", 0xF000, 0x7000⟩, ⟨"LD.R", 0xF00F, 0x8000⟩, ⟨"OR", 0xF00F, 0x8001⟩, ⟨"AND", 0xF00F, 0x8002⟩] ++
  [⟨"XOR", 0xF00F, 0x8003⟩, ⟨"ADD.R", 0xF00F, 0x8004⟩, ⟨"SUB", 0xF00F, 0x8005⟩, ⟨"SHR", 0xF00F, 0x8006⟩, ⟨"SUBN", 0xF00F, 0x8007⟩, ⟨"SHL", 0xF00F, 0x800E⟩] ++
  [⟨"SNE.R", 0xF00F, 0x9000⟩, ⟨"LD.IDX", 0xF000, 0xA000⟩, ⟨"JP.V0", 0xF000, 0xB000⟩, ⟨"RND", 0xF000, 0xC000⟩, ⟨"DRW", 0xF000, 0xD000⟩, ⟨"SKP", 0xF0FF, 0xE09E⟩] ++
  [⟨"SKNP", 0xF0FF, 0xE0A1⟩, ⟨"LD.VX.DT", 0xF0FF, 0xF007⟩, ⟨"LD.VX.K", 0xF0FF, 0xF00A⟩, ⟨"LD.DT.VX", 0xF0FF, 0xF015⟩, ⟨"LD.ST.VX", 0xF0FF, 0xF018⟩, ⟨"ADD.IDX", 0xF0FF, 0xF01E⟩] ++
  [⟨"LD.F", 0xF0FF, 0xF029⟩, ⟨"LD.B", 0xF0FF, 0xF033⟩, ⟨"ST.REGS", 0xF0FF, 0xF055⟩, ⟨"LD.REGS", 0xF0FF, 0xF065⟩]

/-- The mnemonic of an instruction's row (R74). -/
def Instr.mnemonic : Instr → String
  | .cls => "CLS"
  | .ret => "RET"
  | .jp _ => "JP"
  | .call _ => "CALL"
  | .seImm _ _ => "SE.I"
  | .sneImm _ _ => "SNE.I"
  | .seReg _ _ => "SE.R"
  | .ldImm _ _ => "LD.I"
  | .addImm _ _ => "ADD.I"
  | .ldReg _ _ => "LD.R"
  | .orReg _ _ => "OR"
  | .andReg _ _ => "AND"
  | .xorReg _ _ => "XOR"
  | .addReg _ _ => "ADD.R"
  | .sub _ _ => "SUB"
  | .shr _ _ => "SHR"
  | .subn _ _ => "SUBN"
  | .shl _ _ => "SHL"
  | .sneReg _ _ => "SNE.R"
  | .ldIdx _ => "LD.IDX"
  | .jpV0 _ => "JP.V0"
  | .rnd _ _ => "RND"
  | .drw _ _ _ => "DRW"
  | .skp _ => "SKP"
  | .sknp _ => "SKNP"
  | .ldVxDt _ => "LD.VX.DT"
  | .ldVxK _ => "LD.VX.K"
  | .ldDtVx _ => "LD.DT.VX"
  | .ldStVx _ => "LD.ST.VX"
  | .addIdx _ => "ADD.IDX"
  | .ldF _ => "LD.F"
  | .ldB _ => "LD.B"
  | .stRegs _ => "ST.REGS"
  | .ldRegs _ => "LD.REGS"

/-! ### The opcode table's numbering -/

/-- The word that the opcode table numbers: its lowest `nbits` bits, the bits above them 0. -/
def tableWord (nbits w : Nat) : Word := BitVec.ofNat 16 (w % 2 ^ nbits)

end Sys2Proof

/-- What the decoder reads from an instruction's bits, numbered as the opcode table numbers them: laid out as bytes, high
byte first, and given to `decode`. -/
def Sys2Proof.decodeTableWord (nbits w : Nat) : Option Sys2Proof.Instr :=
  match Sys2Proof.decode (Sys2Proof.bytesOfWord (Sys2Proof.tableWord nbits w)) with
  | .ok (i, _) => some i
  | .error _ => none
end

