-- ==== Sys2Proof/Config.lean ====
section
/-! DEFINITION. What is fixed for this machine (`00_scope.md` R5), the font parameter, and the one free value: the random byte. -/

namespace Sys2Proof.Config

/-- `MEM_SIZE`: the modulus applied to every memory index (`00_scope.md` R5, `20_memory.md` R50). -/
abbrev memSize : Nat := 4096

/-- `I_MOD`: the modulus applied to every value written to `I` (`00_scope.md` R5, `10_state.md` R23). -/
abbrev idxMod : Nat := 4096

/-- The program entry address, also where a program image is loaded (`00_scope.md` R5, `10_state.md` R22, R205). -/
abbrev programStart : Nat := 0x200

/-- `LOAD_RESERVED`: the reserved term of the load capacity (`70_reset_and_hazards.md` R205). -/
abbrev loadReserved : Nat := 0

/-- `FONT`: sixteen glyphs of five bytes, glyph `d` at address `5 * d` (`70_reset_and_hazards.md` R202).
UNVERIFIED: the spec gives these bytes from general knowledge (log entry 6). -/
def font : List Byte :=
  [0xF0, 0x90, 0x90, 0x90, 0xF0] ++ [0x20, 0x60, 0x20, 0x20, 0x70] ++
  [0xF0, 0x10, 0xF0, 0x80, 0xF0] ++ [0xF0, 0x10, 0xF0, 0x10, 0xF0] ++
  [0x90, 0x90, 0xF0, 0x10, 0x10] ++ [0xF0, 0x80, 0xF0, 0x10, 0xF0] ++
  [0xF0, 0x80, 0xF0, 0x90, 0xF0] ++ [0xF0, 0x10, 0x20, 0x40, 0x40] ++
  [0xF0, 0x90, 0xF0, 0x90, 0xF0] ++ [0xF0, 0x90, 0xF0, 0x10, 0xF0] ++
  [0xF0, 0x90, 0xF0, 0x90, 0x90] ++ [0xE0, 0x90, 0xE0, 0x90, 0xE0] ++
  [0xF0, 0x80, 0x80, 0x80, 0xF0] ++ [0xE0, 0x90, 0x90, 0x90, 0xE0] ++
  [0xF0, 0x80, 0xF0, 0x80, 0xF0] ++ [0xF0, 0x80, 0xF0, 0x80, 0x80]

/-- The free value of the random source: the byte that draw number `n` hands to `CXNN`
(`43_alu.md` R132, `60_exceptions.md` R185). It has no body, so nothing is known of it (log entry 5). -/
opaque randByte : Nat → Byte

end Sys2Proof.Config
end

