-- ==== Sys2Proof/Machine/State.lean ====
section
/-! DEFINITION. The machine's state (`10_state.md`), the diagnostic a step hands out, the reasons a step could stop, and the
state right after reset. -/

namespace Sys2Proof.Machine

/-- Memory: the cells that differ from the reset contents (`Memory.unlisted`), addresses strictly rising (log entry 1). -/
abbrev Memory := List Host.Cell

/-- The framebuffer: 32 rows of 64 pixels, a pixel set being `true` (`10_state.md` R28). -/
abbrev Frame := Vector (Vector Bool 64) 32

/-- The state of the dispatch state machine (`10_state.md` R31, `40_step.md` R96). -/
inductive Fsm where
  | running
  | awaitingKey
  deriving DecidableEq, Repr

/-- The three reported conditions (`60_exceptions.md` R170, R174). -/
inductive DiagKind where
  | unknownOpcode
  | stackOverflow
  | stackUnderflow
  deriving DecidableEq, Repr

/-- A diagnostic: the condition, the fetched word, and the address it was fetched at (`60_exceptions.md` R170). -/
structure Diagnostic where
  kind : DiagKind
  op : Word
  addr : Word
  deriving DecidableEq, Repr

/-- The machine's state: the record at the head of `10_state.md`, then three fields of the model's own. -/
structure State where
  /-- `MEM`, 4096 bytes (R32). -/
  mem : Memory
  /-- `V0` to `VF`; `VF` is also the flag register (R20, R21). -/
  v : Vector Byte 16
  /-- `PC` (R22). -/
  pc : Word
  /-- `I`, the address register (R23). -/
  i : Word
  /-- `STACK`, sixteen slots (R24). -/
  stack : Vector Word 16
  /-- `SP`, the number of live slots, 0 to 16 (R25). -/
  sp : Fin 17
  /-- `DT`, the delay timer (R26). -/
  dt : Byte
  /-- `ST`, the sound timer (R27). -/
  st : Byte
  /-- `FB`, the framebuffer (R28). -/
  fb : Frame
  /-- `DIRTY` (R29). -/
  dirty : Bool
  /-- `KEY`, pressed being `true` (R30). -/
  key : Vector Bool 16
  /-- `FSM` (R31). -/
  fsm : Fsm
  /-- The model's own (log entry 3): the diagnostic the latest step handed out (`60_exceptions.md` R170). -/
  diag : Option Diagnostic
  /-- The model's own (log entry 4): some step has handed out a diagnostic; never cleared (`92_eei_decisions.md` D6). -/
  reported : Bool
  /-- The model's own (log entry 5): how many random bytes have been drawn (`43_alu.md` R132). -/
  draws : Nat
  deriving DecidableEq, Repr

/-- The reasons a step faults: none, since "it cannot fault, hang inside one step, or be refused" (`40_step.md` R94). -/
inductive Fault where
  deriving DecidableEq, Repr

/-- The reasons a step is refused. -/
inductive Refusal where
  /-- An instruction with no meaning yet, by its mnemonic; raised only by an arm of `exec` and, with every instruction
  modelled, by none. Safe: the model stops where the hardware goes on. -/
  | notModelled (mnemonic : String)
  deriving DecidableEq, Repr

/-- The state after `Reset()` (`10_state.md` R35, `70_reset_and_hazards.md` R200): memory lists nothing, so every cell
reads as its reset contents. The last two fields are the model's choices (log entries 4 and 5). -/
def State.reset : State where
  mem := []
  v := Vector.replicate 16 0
  pc := 0x200
  i := 0
  stack := Vector.replicate 16 0
  sp := 0
  dt := 0
  st := 0
  fb := Vector.replicate 32 (Vector.replicate 64 false)
  dirty := false
  key := Vector.replicate 16 false
  fsm := .running
  diag := none
  reported := false
  draws := 0

end Sys2Proof.Machine
end

