-- ==== Sys2Proof/Machine/Ops.lean ====
section
/-! DEFINITION. The shared operations on memory, registers, the call stack and the program counter; reporting a condition,
which is this hardware's form of taking an exception. -/

namespace Sys2Proof.Machine

/-! ### Memory (`20_memory.md`) -/

/-- What a cell that memory does not list reads as: its reset contents, the font in cells 0 to 79 and 0 above
(`10_state.md` R32, `70_reset_and_hazards.md` R200). -/
def Memory.unlisted (a : Nat) : Byte := (Config.font[a]?).getD 0

/-- The canonical form: addresses strictly rising and inside memory, no cell equal to its reset contents (log entry 1). -/
abbrev Memory.wf (m : Memory) : Prop :=
  m.Pairwise (fun c d => c.1 < d.1) ∧ ∀ c ∈ m, c.1 < Config.memSize ∧ c.2 ≠ Memory.unlisted c.1

/-- The byte held by cell `a`. -/
def Memory.read : Memory → Nat → Byte
  | [], a => Memory.unlisted a
  | c :: m, a => if c.1 = a then c.2 else Memory.read m a

/-- List the cell `a` in its place in the rising order. -/
def Memory.place : Memory → Nat → Byte → Memory
  | [], a, b => [(a, b)]
  | c :: m, a, b => if a < c.1 then (a, b) :: c :: m else c :: Memory.place m a b

/-- Set cell `a` to `b`; a cell set to its reset contents is no longer listed. -/
def Memory.write (m : Memory) (a : Nat) (b : Byte) : Memory :=
  let others := m.filter (fun c => c.1 != a)
  if b = Memory.unlisted a then others else Memory.place others a b

/-- The cell that the address `addr`, any natural number, reaches (R50). -/
def memIndex (addr : Nat) : Nat := addr % Config.memSize

/-- `MemRead(addr, 1)` (`00_scope.md` R8). -/
def State.memRead (s : State) (addr : Nat) : Byte := s.mem.read (memIndex addr)

/-- `MemWrite(addr, 1, b)` (`00_scope.md` R8). -/
def State.memWrite (s : State) (addr : Nat) (b : Byte) : State := { s with mem := s.mem.write (memIndex addr) b }

/-- Write bytes one at a time to `addr`, `addr + 1`, ... in rising order (R54). -/
def State.memWriteList (s : State) (addr : Nat) : List Byte → State
  | [] => s
  | b :: bs => (s.memWrite addr b).memWriteList (addr + 1) bs

/-- Fetch: the big-endian word at `PC` and `PC + 1` (`20_memory.md` R52, `40_step.md` R91). -/
def State.fetchWord (s : State) : Word := wordOfBytes (s.memRead s.pc.toNat) (s.memRead (s.pc.toNat + 1))

/-! ### Registers (`10_state.md`) -/

/-- `V[r]` (R20). -/
def State.reg (s : State) (r : Reg) : Byte := s.v[r]

/-- `V[r] <- b` (R20). -/
def State.setReg (s : State) (r : Reg) (b : Byte) : State := { s with v := s.v.set r b }

/-- The register that doubles as the flag, `VF` (R21). -/
def flagReg : Reg := 15

/-- A flag as a register holds it: exactly 0 or 1 (R21). -/
def flagByte (f : Bool) : Byte := if f then 1 else 0

/-- Write a flag to `VF`. -/
def State.setFlag (s : State) (f : Bool) : State := s.setReg flagReg (flagByte f)

/-- Write a result to `V[x]` and then the flag, so that with `x = 15` the flag remains (`00_scope.md` R9). -/
def State.setRegFlag (s : State) (x : Reg) (b : Byte) (f : Bool) : State := (s.setReg x b).setFlag f

/-- Write the registers `V0` to `V[n-1]` in rising order, `V[k]` taking `f k`. -/
def regsSetBelow (v : Vector Byte 16) (f : Nat → Byte) : (n : Nat) → n ≤ 16 → Vector Byte 16
  | 0, _ => v
  | n + 1, h => (regsSetBelow v f n (Nat.le_of_succ_le h)).set n (f n) h

/-- `I <- n`, reduced modulo 4096 as every write of `I` is (R23). -/
def State.setI (s : State) (n : Nat) : State := { s with i := BitVec.ofNat 16 (n % Config.idxMod) }

/-- The least pressed key, if any is pressed (`46_timer_key.md` R161). -/
def State.leastKey (s : State) : Option Reg := (List.finRange 16).find? (fun k => s.key[k])

/-! ### The call stack (`10_state.md` R24, R25) -/

/-- `SP <- SP + 1; STACK[SP - 1] <- w`, when `SP < 16` (`41_control.md` R102). -/
def State.push (s : State) (w : Word) (h : s.sp.val < 16) : State :=
  { s with sp := ⟨s.sp.val + 1, Nat.succ_lt_succ h⟩, stack := s.stack.set s.sp.val w h }

/-- The top slot `STACK[SP - 1]`, when `SP > 0`. -/
def State.top (s : State) (h : 0 < s.sp.val) : Word := s.stack[s.sp.val - 1]'(by have := s.sp.isLt; omega)

/-- `SP <- SP - 1`; the popped slot keeps its value (`41_control.md` R100). -/
def State.pop (s : State) : State := { s with sp := ⟨s.sp.val - 1, by have := s.sp.isLt; omega⟩ }

/-! ### The end of a step (`40_step.md` R90, R92) -/

/-- The end of a step that reports nothing: `PC <- next`, `FSM <- RUNNING`, no diagnostic. -/
def State.retire (s : State) (next : Word) : State := { s with pc := next, fsm := .running, diag := none }

/-- The default end of a step: `PC <- (P + 2) mod 65536`. -/
def State.advance (s : State) : State := s.retire (s.pc + 2)

/-- The end of a skip taken or not: `PC <- P + 4` or `P + 2`, modulo 65536 (`42_skip.md`). -/
def State.skipIf (s : State) (c : Bool) : State := s.retire (if c then s.pc + 4 else s.pc + 2)

/-- The end of a step that waits for a key: `PC` stays `P`, `FSM <- AWAITING_KEY` (`40_step.md` R96). -/
def State.await (s : State) : State := { s with fsm := .awaitingKey, diag := none }

/-! ### Reporting a condition (`60_exceptions.md` R170 to R178)

This is all there is of taking an exception: nothing is saved, no mode changes, and control goes to `P + 2` (R177). There
is no return from it (R178). -/

/-- Report a condition about the word `op` fetched at `P`: the record `{kind, op, P}`, `PC <- (P + 2) mod 65536`,
`FSM <- RUNNING`, nothing else of the machine's state. -/
def State.report (s : State) (kind : DiagKind) (op : Word) : State :=
  { s.advance with diag := some { kind := kind, op := op, addr := s.pc }, reported := true }

/-- UnknownOpcode (R171). -/
def State.reportUnknown (s : State) (op : Word) : State := s.report .unknownOpcode op

/-- The numeric code of a condition (R174). -/
def DiagKind.code : DiagKind → Nat
  | .unknownOpcode => 1
  | .stackOverflow => 2
  | .stackUnderflow => 3

end Sys2Proof.Machine
end

