-- ==== Sys2Proof/Machine/Operands.lean ====
section
/-! DEFINITION. The operand forms of `30_encoding.md` R73: immediates zero-extended, register operands direct, the address
`I + k`, the key a register names, and the bytes an instruction stores. -/

namespace Sys2Proof.Machine

/-- `NNN` as an address of `PC` or `I` width, zero-extended. -/
def addrOperand (nnn : BitVec 12) : Word := nnn.setWidth 16

/-- The effective address `I + k`, not yet reduced to a cell (`44_index_memory.md`). -/
def State.effAddr (s : State) (k : Nat) : Nat := s.i.toNat + k

/-- The key that a register's value names: its value modulo 16 (`42_skip.md` R114). -/
def keyIndex (b : Byte) : Reg := Fin.ofNat 16 b.toNat

/-- Whether the key that `V[x]` names is pressed (`42_skip.md` R114, R115). -/
def State.keyOperand (s : State) (x : Reg) : Bool := s.key[keyIndex (s.reg x)]

/-- The three decimal digits of a byte: hundreds, tens, ones (`44_index_memory.md` R143). -/
def bcdDigits (b : Byte) : List Byte :=
  [BitVec.ofNat 8 (b.toNat / 100), BitVec.ofNat 8 (b.toNat / 10 % 10), BitVec.ofNat 8 (b.toNat % 10)]

/-- The values of `V0` to `VX`, in that order (`44_index_memory.md` R144). -/
def State.regsUpTo (s : State) (x : Reg) : List Byte := s.v.toList.take (x.val + 1)

/-- Row `r` of the sprite at `I` (`45_display.md` R151). -/
def State.spriteRow (s : State) (r : Nat) : Byte := s.memRead (s.effAddr r)

end Sys2Proof.Machine
end

