-- ==== Sys2Proof/Machine/Flags.lean ====
section
/-! DEFINITION. Every flag computation of the hardware (`43_alu.md` R120, `44_index_memory.md` R141), exact on natural numbers. The collision
flag of `DXYN` is accumulated by the blitter (Display.lean). -/

namespace Sys2Proof.Machine

/-- Carry of `a + b`: 1 when the sum exceeds 255. -/
def carryFlag (a b : Byte) : Bool := decide (a.toNat + b.toNat > 255)

/-- NOT borrow of `a - b`: 0 when `b > a`, else 1. -/
def notBorrowFlag (a b : Byte) : Bool := !decide (b.toNat > a.toNat)

/-- The bit a right shift moves out: `a mod 2`. -/
def lowBitFlag (a : Byte) : Bool := a.getLsbD 0

/-- The bit a left shift moves out: `a div 128`. -/
def highBitFlag (a : Byte) : Bool := a.getLsbD 7

/-- The flag of `FX1E`: 1 when the unreduced sum passes the top address 0xFFF. -/
def idxOverflowFlag (i : Word) (b : Byte) : Bool := decide (i.toNat + b.toNat > 0xFFF)

end Sys2Proof.Machine
end

