-- ==== Sys2Proof/Machine/Alu.lean ====
section
/-! DEFINITION. Register load, arithmetic, logic and the random load: `6XNN`, `7XNN`, `8XY0` to `8XYE`, `CXNN` (`43_alu.md`). -/

namespace Sys2Proof.Machine

/-- `6XNN` LD.I (R121). -/
def execLdImm (x : Reg) (nn : Byte) (s : State) : Host.Outcome State Fault Refusal := .next (s.setReg x nn).advance

/-- `7XNN` ADD.I (R122): the carry is lost. -/
def execAddImm (x : Reg) (nn : Byte) (s : State) : Host.Outcome State Fault Refusal :=
  .next (s.setReg x (s.reg x + nn)).advance

/-- `8XY0` LD.R (R123). -/
def execLdReg (x y : Reg) (s : State) : Host.Outcome State Fault Refusal := .next (s.setReg x (s.reg y)).advance

/-- `8XY1` OR (R124). -/
def execOrReg (x y : Reg) (s : State) : Host.Outcome State Fault Refusal :=
  .next (s.setReg x (s.reg x ||| s.reg y)).advance

/-- `8XY2` AND (R125). -/
def execAndReg (x y : Reg) (s : State) : Host.Outcome State Fault Refusal :=
  .next (s.setReg x (s.reg x &&& s.reg y)).advance

/-- `8XY3` XOR (R126). -/
def execXorReg (x y : Reg) (s : State) : Host.Outcome State Fault Refusal :=
  .next (s.setReg x (s.reg x ^^^ s.reg y)).advance

/-- `8XY4` ADD.R (R127). -/
def execAddReg (x y : Reg) (s : State) : Host.Outcome State Fault Refusal :=
  .next (s.setRegFlag x (s.reg x + s.reg y) (carryFlag (s.reg x) (s.reg y))).advance

/-- `8XY5` SUB (R128). -/
def execSub (x y : Reg) (s : State) : Host.Outcome State Fault Refusal :=
  .next (s.setRegFlag x (s.reg x - s.reg y) (notBorrowFlag (s.reg x) (s.reg y))).advance

/-- `8XY6` SHR (R129): the `Y` digit takes no part (`30_encoding.md` R80). -/
def execShr (x _y : Reg) (s : State) : Host.Outcome State Fault Refusal :=
  .next (s.setRegFlag x (s.reg x >>> 1) (lowBitFlag (s.reg x))).advance

/-- `8XY7` SUBN (R130). -/
def execSubn (x y : Reg) (s : State) : Host.Outcome State Fault Refusal :=
  .next (s.setRegFlag x (s.reg y - s.reg x) (notBorrowFlag (s.reg y) (s.reg x))).advance

/-- `8XYE` SHL (R131): the `Y` digit takes no part (`30_encoding.md` R80). -/
def execShl (x _y : Reg) (s : State) : Host.Outcome State Fault Refusal :=
  .next (s.setRegFlag x (s.reg x <<< 1) (highBitFlag (s.reg x))).advance

/-- `CXNN` given the byte `rand`: `V[X] <- rand AND NN` (R132). -/
def State.rndWith (s : State) (rand : Byte) (x : Reg) (nn : Byte) : State := (s.setReg x (rand &&& nn)).advance

/-- `CXNN` RND (R132): one fresh byte of the random source is drawn at each execution (log entry 5). -/
def execRnd (x : Reg) (nn : Byte) (s : State) : Host.Outcome State Fault Refusal :=
  .next ({ s with draws := s.draws + 1 }.rndWith (Config.randByte s.draws) x nn)

end Sys2Proof.Machine
end

