-- ==== Sys2Proof/Machine/Control.lean ====
section
/-! DEFINITION. Control transfer: `00EE`, `1NNN`, `2NNN`, `BNNN` (`41_control.md`). -/

namespace Sys2Proof.Machine

/-- `00EE` RET (R100, R173): pop the return address; with nothing to pop, report StackUnderflow. -/
def execRet (s : State) : Host.Outcome State Fault Refusal :=
  if h : 0 < s.sp.val then .next (s.pop.retire (s.top h))
  else .next (s.report .stackUnderflow (encodeWord .ret))

/-- `1NNN` JP (R101). -/
def execJp (nnn : BitVec 12) (s : State) : Host.Outcome State Fault Refusal := .next (s.retire (addrOperand nnn))

/-- `2NNN` CALL (R102, R172): push `P + 2` and jump; with the stack full, report StackOverflow. -/
def execCall (nnn : BitVec 12) (s : State) : Host.Outcome State Fault Refusal :=
  if h : s.sp.val < 16 then .next ((s.push (s.pc + 2) h).retire (addrOperand nnn))
  else .next (s.report .stackOverflow (encodeWord (.call nnn)))

/-- `BNNN` JP.V0 (R103). -/
def execJpV0 (nnn : BitVec 12) (s : State) : Host.Outcome State Fault Refusal :=
  .next (s.retire ((s.reg 0).setWidth 16 + addrOperand nnn))

end Sys2Proof.Machine
end

