-- ==== Sys2Proof/Machine/Display.lean ====
section
/-! DEFINITION. The blitter: `00E0`, `DXYN` (`45_display.md`). -/

namespace Sys2Proof.Machine

/-- The pixel `FB[y][x]` (`10_state.md` R28). -/
def Frame.pixel (f : Frame) (x : Fin 64) (y : Fin 32) : Bool := f[y][x]

/-- `FB[y][x] <- FB[y][x] XOR 1`. -/
def Frame.flip (f : Frame) (x : Fin 64) (y : Fin 32) : Frame := f.set y (f[y].set x (!f.pixel x y))

/-- The framebuffer with every pixel 0. -/
def Frame.clear : Frame := Vector.replicate 32 (Vector.replicate 64 false)

/-- Column `x0 + col`, reduced on its own (R151). -/
def pixelColumn (x0 col : Nat) : Fin 64 := Fin.ofNat 64 (x0 + col)

/-- Row `y0 + r`, reduced on its own (R151). -/
def pixelRow (y0 r : Nat) : Fin 32 := Fin.ofNat 32 (y0 + r)

/-- Sprite column `col` takes bit `7 - col` of the row's byte: bit 7 is the leftmost (R151). -/
def spriteBit (b : Byte) (col : Nat) : Bool := b.getLsbD (7 - col)

/-- A set sprite bit on one pixel: note a collision when the pixel was 1, and toggle it. The pair is the framebuffer
and the collisions so far. -/
def plot (x : Fin 64) (y : Fin 32) (c : Frame × Bool) : Frame × Bool := (c.1.flip x y, c.2 || c.1.pixel x y)

/-- One row of a sprite: its eight columns, left to right. -/
def drawRow (x0 : Nat) (y : Fin 32) (b : Byte) (c : Frame × Bool) : Frame × Bool :=
  (List.range 8).foldl (fun c col => if spriteBit b col then plot (pixelColumn x0 col) y c else c) c

/-- The rows 0 to `n - 1` of a sprite whose row `r` is the byte `row r`. -/
def drawSprite (x0 y0 : Nat) (row : Nat → Byte) (n : Nat) (c : Frame × Bool) : Frame × Bool :=
  (List.range n).foldl (fun c r => drawRow x0 (pixelRow y0 r) (row r) c) c

/-- `00E0` CLS (R150). -/
def execCls (s : State) : Host.Outcome State Fault Refusal :=
  .next { s with fb := Frame.clear, dirty := true }.advance

/-- `DXYN` DRW (R151): `VF` and `DIRTY` are written also when `N = 0`. -/
def execDrw (x y : Reg) (n : Nat) (s : State) : Host.Outcome State Fault Refusal :=
  let drawn := drawSprite (s.reg x).toNat (s.reg y).toNat s.spriteRow n (s.fb, false)
  .next ({ s with fb := drawn.1, dirty := true }.setFlag drawn.2).advance

end Sys2Proof.Machine
end

