-- ==== Sys2Proof/Machine/IndexMemory.lean ====
section
/-! DEFINITION. The address register and memory: `ANNN`, `FX1E`, `FX29`, `FX33`, `FX55`, `FX65` (`44_index_memory.md`). -/

namespace Sys2Proof.Machine

/-- `ANNN` LD.IDX (R140). -/
def execLdIdx (nnn : BitVec 12) (s : State) : Host.Outcome State Fault Refusal := .next (s.setI nnn.toNat).advance

/-- `FX1E` ADD.IDX (R141). -/
def execAddIdx (x : Reg) (s : State) : Host.Outcome State Fault Refusal :=
  .next ((s.setI (s.i.toNat + (s.reg x).toNat)).setFlag (idxOverflowFlag s.i (s.reg x))).advance

/-- `FX29` LD.F (R142): `VX` is used whole, not reduced to a digit. -/
def execLdF (x : Reg) (s : State) : Host.Outcome State Fault Refusal := .next (s.setI (5 * (s.reg x).toNat)).advance

/-- `FX33` LD.B (R143): `I` is not changed. -/
def execLdB (x : Reg) (s : State) : Host.Outcome State Fault Refusal :=
  .next (s.memWriteList (s.effAddr 0) (bcdDigits (s.reg x))).advance

/-- `FX55` ST.REGS (R144). -/
def execStRegs (x : Reg) (s : State) : Host.Outcome State Fault Refusal :=
  .next ((s.memWriteList (s.effAddr 0) (s.regsUpTo x)).setI (s.i.toNat + x.val + 1)).advance

/-- `FX65` LD.REGS (R145). -/
def execLdRegs (x : Reg) (s : State) : Host.Outcome State Fault Refusal :=
  .next ({ s with v := regsSetBelow s.v (fun k => s.memRead (s.effAddr k)) (x.val + 1) x.isLt }.setI
    (s.i.toNat + x.val + 1)).advance

end Sys2Proof.Machine
end

