-- ==== Sys2Proof/Machine/Skip.lean ====
section
/-! DEFINITION. Conditional skips: `3XNN`, `4XNN`, `5XY0`, `9XY0`, `EX9E`, `EXA1` (`42_skip.md`). -/

namespace Sys2Proof.Machine

/-- `3XNN` SE.I (R110). -/
def execSeImm (x : Reg) (nn : Byte) (s : State) : Host.Outcome State Fault Refusal := .next (s.skipIf (s.reg x == nn))

/-- `4XNN` SNE.I (R111). -/
def execSneImm (x : Reg) (nn : Byte) (s : State) : Host.Outcome State Fault Refusal := .next (s.skipIf (s.reg x != nn))

/-- `5XY0` SE.R (R112). -/
def execSeReg (x y : Reg) (s : State) : Host.Outcome State Fault Refusal := .next (s.skipIf (s.reg x == s.reg y))

/-- `9XY0` SNE.R (R113). -/
def execSneReg (x y : Reg) (s : State) : Host.Outcome State Fault Refusal := .next (s.skipIf (s.reg x != s.reg y))

/-- `EX9E` SKP (R114). -/
def execSkp (x : Reg) (s : State) : Host.Outcome State Fault Refusal := .next (s.skipIf (s.keyOperand x))

/-- `EXA1` SKNP (R115). -/
def execSknp (x : Reg) (s : State) : Host.Outcome State Fault Refusal := .next (s.skipIf (!s.keyOperand x))

end Sys2Proof.Machine
end

