-- ==== Sys2Proof/Machine/TimerKey.lean ====
section
/-! DEFINITION. Timers and the key wait: `FX07`, `FX0A`, `FX15`, `FX18` (`46_timer_key.md`). -/

namespace Sys2Proof.Machine

/-- `FX07` LD.VX.DT (R160). -/
def execLdVxDt (x : Reg) (s : State) : Host.Outcome State Fault Refusal := .next (s.setReg x s.dt).advance

/-- `FX0A` LD.VX.K (R161): with no key pressed `PC` stays and `FSM` becomes AWAITING_KEY; the latch is only read. -/
def execLdVxK (x : Reg) (s : State) : Host.Outcome State Fault Refusal :=
  match s.leastKey with
  | none => .next s.await
  | some k => .next (s.setReg x (BitVec.ofNat 8 k.val)).advance

/-- `FX15` LD.DT.VX (R162). -/
def execLdDtVx (x : Reg) (s : State) : Host.Outcome State Fault Refusal := .next { s with dt := s.reg x }.advance

/-- `FX18` LD.ST.VX (R163). -/
def execLdStVx (x : Reg) (s : State) : Host.Outcome State Fault Refusal := .next { s with st := s.reg x }.advance

end Sys2Proof.Machine
end

