-- ==== Sys2Proof/Machine/Step.lean ====
section
/-! DEFINITION. One step: fetch, decode, execute, or report an unknown opcode (`40_step.md` R90). -/

namespace Sys2Proof.Machine

/-- `Step` (R90). The meanings latch `PC` as `P`, and end by writing `PC`, `FSM` and the diagnostic. -/
def step (s : State) : Host.Outcome State Fault Refusal :=
  match decodeWord s.fetchWord with
  | .ok i => exec i s
  | .error _ => .next (s.reportUnknown s.fetchWord)

/-- The state with an instruction's word stored where the next fetch reads it: the high byte at `PC`, the low byte at
`PC + 1`. -/
def State.withFetchWord (s : State) (nbits w : Nat) : State :=
  s.memWriteList s.pc.toNat (bytesOfWord (tableWord nbits w))

end Sys2Proof.Machine
end

