-- ==== Sys2Proof/Machine/HostOps.lean ====
section
/-! DEFINITION. The operations of the host and their composition with the step (`00_scope.md` R11): reset, program load, timer tick, key
write, the rendering interface. Each is atomic and falls between steps (`20_memory.md` R59). -/

namespace Sys2Proof.Machine

/-- `Reset()` (`70_reset_and_hazards.md` R200). The mark that something was reported and the count of random bytes drawn
are not the machine's and go on (log entries 4 and 5). -/
def State.hostReset (s : State) : State := { State.reset with reported := s.reported, draws := s.draws }

/-- Why a load fails (`70_reset_and_hazards.md` R206). -/
inductive LoadError where
  | unreadable
  | exceedsCapacity
  deriving DecidableEq, Repr

/-- The longest image a load accepts: `4096 - 512 - LOAD_RESERVED` (R205). -/
def loadCapacity : Nat := 4096 - 512 - Config.loadReserved

/-- `Load(bytes)` (R205, R206): the image goes to 0x200 and up; `none` is a source the loader could not read. -/
def State.load (s : State) : Option (List Byte) → Except LoadError State
  | none => .error .unreadable
  | some bytes =>
    if bytes.length > loadCapacity then .error .exceedsCapacity
    else .ok (s.memWriteList Config.programStart bytes)

/-- `Tick()`: both timers lowered by 1, floored at 0 (`60_exceptions.md` R181). -/
def State.tick (s : State) : State :=
  { s with dt := if s.dt = 0 then 0 else s.dt - 1, st := if s.st = 0 then 0 else s.st - 1 }

/-- `KeyWrite(k, b)` (`60_exceptions.md` R183). -/
def State.keyWrite (s : State) (k : Reg) (b : Bool) : State := { s with key := s.key.set k b }

/-- `DirtyClear()` (`60_exceptions.md` R184). -/
def State.dirtyClear (s : State) : State := { s with dirty := false }

/-- What the rendering collaborator reads: the framebuffer and the dirty flag (`60_exceptions.md` R184). -/
def State.frame (s : State) : Frame × Bool := (s.fb, s.dirty)

/-- The framebuffer as one sequence: pixel `(x, y)` is element `y * 64 + x` (`10_state.md` R28). -/
def State.framePixel (s : State) (n : Fin 2048) : Bool :=
  s.fb.pixel ⟨n.val % 64, Nat.mod_lt _ (by decide)⟩ ⟨n.val / 64, by have := n.isLt; omega⟩

/-- The operations by which the state changes (`00_scope.md` R11). -/
inductive Op where
  | reset
  | load (image : Option (List Byte))
  | step
  | tick
  | keyWrite (k : Reg) (b : Bool)
  | dirtyClear
  deriving DecidableEq, Repr

/-- One operation; a rejected load leaves the state as it was (R206). -/
def Op.run : Op → State → Host.Outcome State Fault Refusal
  | .reset, s => .next s.hostReset
  | .load image, s =>
    match s.load image with
    | .ok t => .next t
    | .error _ => .next s
  | .step, s => Machine.step s
  | .tick, s => .next s.tick
  | .keyWrite k b, s => .next (s.keyWrite k b)
  | .dirtyClear, s => .next s.dirtyClear

/-- A schedule: operations one after another (`70_reset_and_hazards.md` R207). -/
def runOps : List Op → State → Host.Outcome State Fault Refusal
  | [], s => .next s
  | o :: os, s =>
    match o.run s with
    | .next t => runOps os t
    | .fault f => .fault f
    | .refused r => .refused r

end Sys2Proof.Machine
end

