-- ==== Sys2Proof/Safety.lean ====
section
/-! DEFINITION. The terms claims use: the parts of the state and what an instruction leaves unchanged, how a step ends, the
tables of `40_step.md` R92 and `10_state.md` R21 as functions, a sprite's pixels in closed form, and the invariant. -/

namespace Sys2Proof.Machine

/-! ### What is left unchanged (`00_scope.md` R10) -/

/-- The parts of the state, one per field. -/
inductive Part where
  | mem | v | pc | i | stack | sp | dt | st | fb | dirty | key | fsm | diag | reported | draws
  deriving DecidableEq, Repr

/-- A part is the same in two states; memory through the read of each byte, registers and pixels one by one. -/
def Part.Same (p : Part) (s t : State) : Prop :=
  match p with
  | .mem => ∀ a, t.memRead a = s.memRead a
  | .v => ∀ r, t.reg r = s.reg r
  | .pc => t.pc = s.pc
  | .i => t.i = s.i
  | .stack => ∀ k : Fin 16, t.stack[k] = s.stack[k]
  | .sp => t.sp = s.sp
  | .dt => t.dt = s.dt
  | .st => t.st = s.st
  | .fb => ∀ x y, t.fb.pixel x y = s.fb.pixel x y
  | .dirty => t.dirty = s.dirty
  | .key => ∀ k : Fin 16, t.key[k] = s.key[k]
  | .fsm => t.fsm = s.fsm
  | .diag => t.diag = s.diag
  | .reported => t.reported = s.reported
  | .draws => t.draws = s.draws

/-- Every part but the listed ones is the same in `t` as in `s`. -/
def SameExcept (ps : List Part) (s t : State) : Prop := ∀ p, p ∉ ps → p.Same s t

/-! ### How a step ends (`40_step.md` R90, R92) -/

/-- The step that gave `t` left `PC` at `n`, `FSM` RUNNING, and reported nothing. -/
def EndsAt (n : Nat) (t : State) : Prop := t.pc.toNat = n ∧ t.fsm = .running ∧ t.diag = none

/-- The default end: `PC` is `(P + 2) mod 65536`. -/
def Advanced (s t : State) : Prop := EndsAt ((s.pc.toNat + 2) % 65536) t

/-- The end of a skip instruction whose condition is `c`: `(P + 4) mod 65536` or `(P + 2) mod 65536`. -/
def SkippedIf (c : Prop) (s t : State) : Prop :=
  (c → EndsAt ((s.pc.toNat + 4) % 65536) t) ∧ (¬c → EndsAt ((s.pc.toNat + 2) % 65536) t)

/-- A reported condition (`60_exceptions.md` R174): the record, `PC <- P + 2`, and nothing else of the machine's state
(`reported` is the model's own mark, log entry 4). -/
def Reported (kind : DiagKind) (op : Word) (s t : State) : Prop :=
  t.diag = some ⟨kind, op, s.pc⟩ ∧ t.pc.toNat = (s.pc.toNat + 2) % 65536 ∧ t.fsm = .running ∧
    SameExcept [.pc, .fsm, .diag, .reported] s t

/-- The word `w`, below 65536, is the instruction `i`. -/
def Spells (w : Nat) (i : Instr) : Prop := w < 65536 ∧ decodeWord (BitVec.ofNat 16 w) = .ok i

/-- Some key is pressed. -/
def State.AnyKey (s : State) : Prop := ∃ k : Fin 16, s.key[k] = true

/-- The word `w` is no instruction (`30_encoding.md` R76). -/
def unknownWord (w : Nat) : Bool :=
  match decodeWord (BitVec.ofNat 16 w) with
  | .ok _ => false
  | .error _ => true

/-- How many of the 4096 words of group `g` are no instruction (`30_encoding.md` R76). -/
def unknownInGroup (g : Nat) : Nat := (List.range 4096).countP fun n => unknownWord (g * 4096 + n)

/-! ### Tables of the spec as functions -/

/-- `PC` after an instruction, the table of `40_step.md` R92; `s` is the state before. -/
def PcAfter (i : Instr) (s : State) (n : Nat) : Prop :=
  let p := s.pc.toNat
  let skip (c : Prop) : Prop := (c ∧ n = (p + 4) % 65536) ∨ (¬c ∧ n = (p + 2) % 65536)
  match i with
  | .ret => (∃ h : 0 < s.sp.val, n = (s.top h).toNat) ∨ (s.sp.val = 0 ∧ n = (p + 2) % 65536)
  | .jp nnn => n = nnn.toNat
  | .call nnn => (s.sp.val < 16 ∧ n = nnn.toNat) ∨ (s.sp.val = 16 ∧ n = (p + 2) % 65536)
  | .seImm x nn => skip (s.reg x = nn)
  | .sneImm x nn => skip (s.reg x ≠ nn)
  | .seReg x y => skip (s.reg x = s.reg y)
  | .sneReg x y => skip (s.reg x ≠ s.reg y)
  | .skp x => skip (s.key[keyIndex (s.reg x)] = true)
  | .sknp x => skip (s.key[keyIndex (s.reg x)] = false)
  | .jpV0 nnn => n = ((s.reg 0).toNat + nnn.toNat) % 65536
  | .ldVxK _ => (¬s.AnyKey ∧ n = p) ∨ (s.AnyKey ∧ n = (p + 2) % 65536)
  | .cls | .ldImm _ _ | .addImm _ _ | .ldReg _ _ | .orReg _ _ | .andReg _ _ | .xorReg _ _ | .addReg _ _ => n = (p + 2) % 65536
  | .sub _ _ | .shr _ _ | .subn _ _ | .shl _ _ | .ldIdx _ | .rnd _ _ | .drw _ _ _ | .ldVxDt _ => n = (p + 2) % 65536
  | .ldDtVx _ | .ldStVx _ | .addIdx _ | .ldF _ | .ldB _ | .stRegs _ | .ldRegs _ => n = (p + 2) % 65536

/-- The condition an instruction reports, if any (`60_exceptions.md` R174). -/
def instrReports (i : Instr) (s : State) : Option DiagKind :=
  match i with
  | .ret => if s.sp.val = 0 then some .stackUnderflow else none
  | .call _ => if s.sp.val = 16 then some .stackOverflow else none
  | .cls | .jp _ | .seImm _ _ | .sneImm _ _ | .seReg _ _ | .ldImm _ _ | .addImm _ _ | .ldReg _ _ | .orReg _ _ => none
  | .andReg _ _ | .xorReg _ _ | .addReg _ _ | .sub _ _ | .shr _ _ | .subn _ _ | .shl _ _ | .sneReg _ _ | .ldIdx _ => none
  | .jpV0 _ | .rnd _ _ | .drw _ _ _ | .skp _ | .sknp _ | .ldVxDt _ | .ldVxK _ | .ldDtVx _ | .ldStVx _ | .addIdx _ => none
  | .ldF _ | .ldB _ | .stRegs _ | .ldRegs _ => none

/-- The instructions that write `VF` as a flag (`10_state.md` R21). -/
def writesFlag : Instr → Bool
  | .addReg _ _ | .sub _ _ | .shr _ _ | .subn _ _ | .shl _ _ | .drw _ _ _ | .addIdx _ => true
  | .cls | .ret | .jp _ | .call _ | .seImm _ _ | .sneImm _ _ | .seReg _ _ | .ldImm _ _ | .addImm _ _ => false
  | .ldReg _ _ | .orReg _ _ | .andReg _ _ | .xorReg _ _ | .sneReg _ _ | .ldIdx _ | .jpV0 _ | .rnd _ _ => false
  | .skp _ | .sknp _ | .ldVxDt _ | .ldVxK _ | .ldDtVx _ | .ldStVx _ | .ldF _ | .ldB _ | .stRegs _ | .ldRegs _ => false

/-- The register an instruction names as its destination `VX` (`10_state.md` R20); `FX65` counts through its last one. -/
def destReg : Instr → Option Reg
  | .ldImm x _ | .addImm x _ | .ldReg x _ | .orReg x _ | .andReg x _ | .xorReg x _ | .addReg x _ => some x
  | .sub x _ | .shr x _ | .subn x _ | .shl x _ | .rnd x _ | .ldVxDt x | .ldVxK x | .ldRegs x => some x
  | .cls | .ret | .jp _ | .call _ | .seImm _ _ | .sneImm _ _ | .seReg _ _ | .sneReg _ _ | .ldIdx _ | .jpV0 _ => none
  | .drw _ _ _ | .skp _ | .sknp _ | .ldDtVx _ | .ldStVx _ | .addIdx _ | .ldF _ | .ldB _ | .stRegs _ => none

/-! ### A sprite in closed form (`45_display.md` R151) -/

/-- The pixel `(px, py)` lies under a 1 bit of the sprite that `DXYN` draws in state `s`: some row `r` below `n` and some
column `col` of its eight have that pixel's wrapped coordinates and a set bit `7 - col`. -/
def SpriteCovers (s : State) (x y : Reg) (n : Nat) (px : Fin 64) (py : Fin 32) : Prop :=
  ∃ r < n, ∃ col < 8, px.val = ((s.reg x).toNat + col) % 64 ∧ py.val = ((s.reg y).toNat + r) % 32 ∧
    (s.memRead (s.effAddr r)).getLsbD (7 - col) = true

/-! ### The invariant (`10_state.md` R36) -/

/-- What holds after reset and after every operation: memory is in its canonical form, `I` is at most 0xFFF, a reported
condition is marked, and a step that waits reports nothing. `SP` is at most 16 by its type. -/
abbrev State.Inv (s : State) : Prop :=
  s.mem.wf ∧ s.i.toNat ≤ 0xFFF ∧ (s.diag ≠ none → s.reported = true) ∧ (s.fsm = .awaitingKey → s.diag = none)

end Sys2Proof.Machine
end

