-- ==== Sys2Proof/Certificates/Slice0/Obligations.lean ====
section
/-! DEFINITION. The statements for the provers: each is a rule of the spec, or a property of the whole machine, about `exec`,
`step`, the decoder or the host's operations. `Spells w i` says that the word `w` decodes to `i`; `SameExcept ps s t` is the frame;
`EndsAt`, `Advanced`, `SkippedIf` and `Reported` say how a step ends (Safety.lean). -/

open Sys2Proof Sys2Proof.Machine

/-! ### Reset and the host's operations -/

/-- R35, R200: what reset leaves, in whatever state the host resets; the constant `State.reset` has the same values. -/
def Obligations.ResetLeavesSpecifiedValues : Prop :=
  ∀ s t : State, Op.run .reset s = .next t ∨ t = State.reset →
    (∀ a < 80, Config.font[a]? = some (t.memRead a)) ∧ (∀ a < 4096, 80 ≤ a → t.memRead a = 0) ∧
    (∀ r, t.reg r = 0) ∧ t.pc = 0x200 ∧ t.i = 0 ∧ (∀ k : Fin 16, t.stack[k] = 0) ∧ t.sp = 0 ∧ t.dt = 0 ∧ t.st = 0 ∧
    (∀ x y, t.fb.pixel x y = false) ∧ t.dirty = false ∧ (∀ k : Fin 16, t.key[k] = false) ∧ t.fsm = .running ∧ t.diag = none

/-- R201: two resets in a row leave the same state as one, and a reset of any state answers. -/
def Obligations.ResetIsIdempotent : Prop :=
  ∀ s : State, ∃ t, runOps [.reset] s = .next t ∧ runOps [.reset, .reset] s = .next t

/-- R181. -/
def Obligations.TickLowersBothTimers : Prop :=
  ∀ s : State, ∃ t, Op.run .tick s = .next t ∧ t.dt.toNat = s.dt.toNat - 1 ∧ t.st.toNat = s.st.toNat - 1 ∧
    SameExcept [.dt, .st] s t

/-- R183: the key write changes one flag, and no step changes a flag. -/
def Obligations.KeyWriteChangesOneKey : Prop :=
  ∀ (s : State) (k : Reg) (b : Bool),
    (∃ t, Op.run (.keyWrite k b) s = .next t ∧ (∀ j : Fin 16, t.key[j] = if j = k then b else s.key[j]) ∧
      SameExcept [.key] s t) ∧
    ∀ t, step s = .next t → ∀ j : Fin 16, t.key[j] = s.key[j]

/-- R184: the collaborator reads `FB` and `DIRTY`, as a grid or in the order of `10_state.md` R28, and clears `DIRTY` alone; a step
leaves `DIRTY` at 1 exactly when it was 1 or the step ran `00E0` or `DXYN`. -/
def Obligations.DirtyClearAndFrameRead : Prop :=
  ∀ s : State,
    (∃ t, Op.run .dirtyClear s = .next t ∧ t.dirty = false ∧ SameExcept [.dirty] s t) ∧
    (∀ x y, s.frame.1.pixel x y = s.fb.pixel x y) ∧ s.frame.2 = s.dirty ∧
    (∀ (x : Fin 64) (y : Fin 32) (n : Fin 2048), n.val = y.val * 64 + x.val → s.framePixel n = s.fb.pixel x y) ∧
    ∀ t, step s = .next t → (t.dirty = true ↔
      s.dirty = true ∨ decodeWord s.fetchWord = .ok .cls ∨ ∃ x y n, decodeWord s.fetchWord = .ok (.drw x y n))

/-- R205, R206: an image of at most 3584 bytes lands at 0x200 and up and changes nothing else; a longer or unreadable one is
rejected, and the operation then leaves the state as it was. -/
def Obligations.LoadWritesImageOrRejects : Prop :=
  ∀ (s : State) (bytes : List Byte),
    (bytes.length ≤ 3584 → ∃ t, s.load (some bytes) = .ok t ∧ Op.run (.load (some bytes)) s = .next t ∧
      (∀ k (h : k < bytes.length), t.memRead (0x200 + k) = bytes[k]) ∧
      (∀ a < 4096, (∀ k < bytes.length, a ≠ 0x200 + k) → t.memRead a = s.memRead a) ∧ SameExcept [.mem] s t) ∧
    (3584 < bytes.length → s.load (some bytes) = .error .exceedsCapacity ∧ Op.run (.load (some bytes)) s = .next s) ∧
    s.load none = .error .unreadable ∧ Op.run (.load none) s = .next s

/-! ### Invariants -/

/-- The invariant holds at reset. -/
def Obligations.ResetMeetsInvariant : Prop := State.reset.Inv

/-- Every step keeps the invariant, from every state that meets it. -/
def Obligations.StepKeepsInvariant : Prop := ∀ s t : State, s.Inv → step s = .next t → t.Inv

/-- Every schedule of steps and host operations runs to its end, and the invariant holds there. Of its clauses only `I` at most
0xFFF and `SP` at most 16 are R36's: those on the canonical form of memory, the record of the diagnostic and the mark are the
model's (log entries 1, 3, 4), and `SP` at most 16 holds by the type the model chose for it (log entry 2). -/
def Obligations.EveryScheduleRunsAndKeepsInvariant : Prop :=
  ∀ (os : List Op) (s : State), s.Inv → ∃ t, runOps os s = .next t ∧ t.Inv ∧ t.sp.val ≤ 16 ∧ t.i.toNat ≤ 0xFFF

/-! ### Encoding -/

/-- Decoding the bytes of a well-formed instruction, whatever follows them, gives it back. -/
def Obligations.DecodeOfEncodeIsTheInstruction : Prop :=
  ∀ (i : Instr) (rest : List Byte), i.wellFormed = true → decode (encode i ++ rest) = .ok (i, rest)

/-- The other direction: bytes that decode to an instruction are its encoding, and it is well-formed. For `8XY6` and `8XYE` this
holds because the model keeps the ignored `Y` digit as an operand (log entry 13, DESIGN CHOICE): R80 says that all 16 values of `Y`
give the same instruction, so that no bit is dropped there is the model's choice. -/
def Obligations.EncodeOfDecodeIsTheBytes : Prop :=
  ∀ (bytes rest : List Byte) (i : Instr), decode bytes = .ok (i, rest) → i.wellFormed = true ∧ encode i ++ rest = bytes

/-- R74: a word is the instruction of a row exactly when it matches the row under its mask, and no two rows match one word. -/
def Obligations.DecoderFollowsOpcodeTable : Prop :=
  opcodeTable.length = 34 ∧
  (∀ row ∈ opcodeTable, ∀ op, row.Matches op ↔ ∃ i, decodeWord op = .ok i ∧ i.mnemonic = row.mnemonic) ∧
  (∀ op i, decodeWord op = .ok i → ∃ row ∈ opcodeTable, row.mnemonic = i.mnemonic ∧ row.Matches op) ∧
  opcodeTable.Pairwise fun r q => ∀ op, ¬(r.Matches op ∧ q.Matches op)

/-- R76: a word is unknown exactly when its digits are those of a row of that table; the counts of the sixteen groups are the
table's, and 21582 words are unknown in all. -/
def Obligations.UnknownWordsAreTheListedGroups : Prop :=
  (∀ op : Word, decodeWord op = .error (.unknownOpcode op) ↔
    let g := op.toNat / 4096; let nnn := op.toNat % 4096; let nn := op.toNat % 256; let n := op.toNat % 16
    (g = 0x0 ∧ nnn ≠ 0x0E0 ∧ nnn ≠ 0x0EE) ∨ (g = 0x5 ∧ n ≠ 0) ∨ (g = 0x8 ∧ n ∈ [8, 9, 0xA, 0xB, 0xC, 0xD, 0xF]) ∨
    (g = 0x9 ∧ n ≠ 0) ∨ (g = 0xE ∧ nn ≠ 0x9E ∧ nn ≠ 0xA1) ∨
    (g = 0xF ∧ nn ∉ [0x07, 0x0A, 0x15, 0x18, 0x1E, 0x29, 0x33, 0x55, 0x65])) ∧
  (∀ op : Word, (∃ i, decodeWord op = .ok i) ∨ decodeWord op = .error (.unknownOpcode op)) ∧
  (List.range 16).map unknownInGroup = [4094, 0, 0, 0, 0, 3840, 0, 0, 1792, 3840, 0, 0, 0, 0, 4064, 3952] ∧
  ((List.range 16).map unknownInGroup).sum = 21582

/-- Sanity: words written out from the spec's encodings decode to the instructions they stand for. -/
def Obligations.WordsOfTheSpecDecode : Prop :=
  Spells 0x00E0 .cls ∧ Spells 0x1ABC (.jp 0xABC) ∧ Spells 0x4A42 (.sneImm 0xA 0x42) ∧ Spells 0x8AB7 (.subn 0xA 0xB) ∧
    Spells 0xA2F0 (.ldIdx 0x2F0) ∧ Spells 0xD01F (.drw 0 1 15) ∧ Spells 0xE1A1 (.sknp 1) ∧ Spells 0xF30A (.ldVxK 3)

/-! ### The step -/

/-- R50: an address reaches the cell that is its remainder modulo 4096, for a read and for a write. -/
def Obligations.MemoryIndexWraps : Prop :=
  ∀ (s : State) (a : Nat) (b : Byte), s.memRead a = s.memRead (a % 4096) ∧ s.memWrite a b = s.memWrite (a % 4096) b ∧
    (s.memWrite a b).memRead (a % 4096) = b ∧ ∀ c, c % 4096 ≠ a % 4096 → (s.memWrite a b).memRead c = s.memRead c

/-- R91: the fetched word is the cell at `P mod 4096` times 256 plus the cell at `(P + 1) mod 4096`. -/
def Obligations.FetchIsBigEndian : Prop :=
  ∀ s : State, s.fetchWord.toNat =
    (s.memRead (s.pc.toNat % 4096)).toNat * 256 + (s.memRead ((s.pc.toNat + 1) % 4096)).toNat

/-- A step runs the instruction that the two bytes at `PC` decode to; `exec` itself moves `PC`. -/
def Obligations.StepRunsDecodedInstruction : Prop :=
  ∀ (s : State) (i : Instr), decode [s.memRead s.pc.toNat, s.memRead (s.pc.toNat + 1)] = .ok (i, []) → step s = exec i s

/-- A well-formed instruction stored where the step fetches is what the step runs. -/
def Obligations.StoredInstructionIsRun : Prop :=
  ∀ (s : State) (i : Instr), i.wellFormed = true →
    step (s.withFetchWord 16 (encodeWord i).toNat) = exec i (s.withFetchWord 16 (encodeWord i).toNat)

/-- R171: a word that is no instruction is reported and passed over. -/
def Obligations.UnknownOpcodeIsReported : Prop :=
  ∀ s : State, (∀ i, decodeWord s.fetchWord ≠ .ok i) →
    ∃ t, step s = .next t ∧ Reported .unknownOpcode s.fetchWord s t

/-- R94: from every state a step gives a next state, and so does every instruction. -/
def Obligations.StepIsTotal : Prop :=
  (∀ s : State, ∃ t, step s = .next t) ∧ ∀ (i : Instr) (s : State), ∃ t, exec i s = .next t

/-- R92: `PC` after each instruction and after an unknown opcode, with the diagnostic of the rows that have one. -/
def Obligations.ProgramCounterTable : Prop :=
  (∀ (i : Instr) (s : State), ∃ t, exec i s = .next t ∧ PcAfter i s t.pc.toNat ∧
    t.diag.map Diagnostic.kind = instrReports i s) ∧
  ∀ s : State, (∀ i, decodeWord s.fetchWord ≠ .ok i) → ∃ t, step s = .next t ∧
    t.pc.toNat = (s.pc.toNat + 2) % 65536 ∧ t.diag.map Diagnostic.kind = some .unknownOpcode

/-- R96: `FSM` is AWAITING_KEY after a step exactly when the step executed `FX0A` with no key pressed; then only `FSM` (and
the model's record of the last diagnostic) can have changed. A reset leaves RUNNING. -/
def Obligations.DispatchStateAfterStep : Prop :=
  (∀ s t : State, step s = .next t →
    (t.fsm = .awaitingKey ↔ (∃ x, decodeWord s.fetchWord = .ok (.ldVxK x)) ∧ ∀ k : Fin 16, s.key[k] = false) ∧
    (t.fsm = .awaitingKey → SameExcept [.fsm, .diag] s t)) ∧
  ∀ s t : State, Op.run .reset s = .next t → t.fsm = .running

/-- R174: which condition a step reports, with the record it hands out; a report changes nothing but `PC` (and `FSM` and the model's
own record and mark), and a step of any other instruction reports nothing. -/
def Obligations.DiagnosticOfAStep : Prop :=
  (DiagKind.code .unknownOpcode = 1 ∧ DiagKind.code .stackOverflow = 2 ∧ DiagKind.code .stackUnderflow = 3) ∧
  ∀ s : State, ∃ t, step s = .next t ∧
    (∀ e, decodeWord s.fetchWord = .error e → Reported .unknownOpcode s.fetchWord s t) ∧
    (∀ i kind, decodeWord s.fetchWord = .ok i → instrReports i s = some kind → Reported kind s.fetchWord s t) ∧
    (∀ i, decodeWord s.fetchWord = .ok i → instrReports i s = none → t.diag = none)

/-- The model's own mark (log entry 4): a step sets it exactly when it reports, and nothing clears it. -/
def Obligations.ReportMarkIsSticky : Prop :=
  (∀ s t : State, step s = .next t → t.reported = (s.reported || t.diag.isSome)) ∧
  ∀ (o : Op) (s t : State), Op.run o s = .next t → s.reported = true → t.reported = true

/-- A jump to itself and a wait with no key pressed are fixed points (`40_step.md` R97); the model's record of the last diagnostic
is cleared (log entry 3). -/
def Obligations.SelfJumpAndKeyWaitStay : Prop :=
  ∀ s : State,
    (∀ nnn, decodeWord s.fetchWord = .ok (.jp nnn) → s.pc.toNat = nnn.toNat → s.fsm = .running →
      ∃ t, step s = .next t ∧ SameExcept [.diag] s t) ∧
    (∀ x, decodeWord s.fetchWord = .ok (.ldVxK x) → (∀ k : Fin 16, s.key[k] = false) →
      ∃ t, step s = .next t ∧ SameExcept [.fsm, .diag] s t ∧ step t = .next t)

/-! ### Whole-machine rules -/

/-- Which instructions may change each part of the state (`10_state.md` R23 to R30, `20_memory.md` R51): no other does, and none
changes a key. The clause about `draws`, the model's counter of random bytes, is log entry 5. -/
def Obligations.OnlyNamedInstructionsWrite : Prop :=
  ∀ (i : Instr) (s t : State), exec i s = .next t →
    (∀ k : Fin 16, t.key[k] = s.key[k]) ∧
    ((∃ a, t.memRead a ≠ s.memRead a) → ∃ x, i = .ldB x ∨ i = .stRegs x) ∧
    (t.i ≠ s.i → (∃ nnn, i = .ldIdx nnn) ∨ ∃ x, i = .addIdx x ∨ i = .ldF x ∨ i = .stRegs x ∨ i = .ldRegs x) ∧
    ((∃ k : Fin 16, t.stack[k] ≠ s.stack[k]) → ∃ nnn, i = .call nnn) ∧
    (t.sp ≠ s.sp → i = .ret ∨ ∃ nnn, i = .call nnn) ∧
    (t.dt ≠ s.dt → ∃ x, i = .ldDtVx x) ∧ (t.st ≠ s.st → ∃ x, i = .ldStVx x) ∧
    ((∃ x y, t.fb.pixel x y ≠ s.fb.pixel x y) → i = .cls ∨ ∃ x y n, i = .drw x y n) ∧
    (t.dirty ≠ s.dirty → t.dirty = true ∧ (i = .cls ∨ ∃ x y n, i = .drw x y n)) ∧
    (t.draws ≠ s.draws → ∃ x nn, i = .rnd x nn)

/-- Which registers an instruction may change (`10_state.md` R20, R21; `00_scope.md` R10): its destination, the registers `FX65`
counts through, and `VF` under the rules that name it, which leave exactly 0 or 1 there. -/
def Obligations.OnlyNamedRegistersChange : Prop :=
  ∀ (i : Instr) (s t : State), exec i s = .next t →
    (∀ r, t.reg r ≠ s.reg r → destReg i = some r ∨ (∃ x, i = .ldRegs x ∧ r ≤ x) ∨ (r = 15 ∧ writesFlag i = true)) ∧
    (writesFlag i = true → t.reg 15 = 0 ∨ t.reg 15 = 1)

/-- R93: the step reads none of `FSM`, `DIRTY`, `ST` and the `STACK` slots other than the top (nor the model's record and mark):
two states that differ only there give next states that differ only there, and there `FSM` and the record are the same. This is
given the same random byte: R93 has `rand` as an input, and the two states have drawn equally often, so a `CXNN` takes the same
byte `Config.randByte` in both (log entry 5). The record and the mark are the model's (log entries 3, 4). -/
def Obligations.StepReadsNoStatus : Prop :=
  ∀ s u : State, SameExcept [.fsm, .dirty, .st, .stack, .diag, .reported] s u →
    (∀ k : Fin 16, k.val + 1 = s.sp.val → u.stack[k] = s.stack[k]) →
    ∃ t w, step s = .next t ∧ step u = .next w ∧ SameExcept [.dirty, .st, .stack, .reported] t w

/-! ### Control transfer -/

/-- R100, R173. -/
def Obligations.RetPopsOrReportsUnderflow : Prop :=
  ∀ s : State, Spells 0x00EE .ret ∧
    (∀ k : Fin 16, s.sp.val = k.val + 1 → ∃ t, exec .ret s = .next t ∧ t.sp.val = k.val ∧
      EndsAt (s.stack[k]).toNat t ∧ SameExcept [.sp, .pc, .fsm, .diag] s t) ∧
    (s.sp.val = 0 → ∃ t, exec .ret s = .next t ∧ Reported .stackUnderflow 0x00EE s t)

/-- R101, R103. -/
def Obligations.JumpsSetProgramCounter : Prop :=
  ∀ (nnn : BitVec 12) (s : State),
    (Spells (0x1000 + nnn.toNat) (.jp nnn) ∧ ∃ t, exec (.jp nnn) s = .next t ∧ EndsAt nnn.toNat t ∧
      SameExcept [.pc, .fsm, .diag] s t) ∧
    (Spells (0xB000 + nnn.toNat) (.jpV0 nnn) ∧ ∃ t, exec (.jpV0 nnn) s = .next t ∧
      EndsAt (((s.reg 0).toNat + nnn.toNat) % 65536) t ∧ SameExcept [.pc, .fsm, .diag] s t)

/-- R102, R172. -/
def Obligations.CallPushesOrReportsOverflow : Prop :=
  ∀ (nnn : BitVec 12) (s : State), Spells (0x2000 + nnn.toNat) (.call nnn) ∧
    (∀ k : Fin 16, s.sp.val = k.val → ∃ t, exec (.call nnn) s = .next t ∧ t.sp.val = k.val + 1 ∧
      (∀ j : Fin 16, (t.stack[j]).toNat = if j = k then (s.pc.toNat + 2) % 65536 else (s.stack[j]).toNat) ∧
      EndsAt nnn.toNat t ∧ SameExcept [.stack, .sp, .pc, .fsm, .diag] s t) ∧
    (s.sp.val = 16 → ∃ t, exec (.call nnn) s = .next t ∧
      Reported .stackOverflow (BitVec.ofNat 16 (0x2000 + nnn.toNat)) s t)

/-- A call below depth 16 and the return from it end at the call's `PC` plus 2 with the stack pointer as it was (`41_control.md`
R100, R102). -/
def Obligations.CallThenReturnComesBack : Prop :=
  ∀ (nnn : BitVec 12) (s : State), s.sp.val < 16 → ∃ t u, exec (.call nnn) s = .next t ∧ exec .ret t = .next u ∧
    u.sp = s.sp ∧ Advanced s u ∧ SameExcept [.stack, .pc, .fsm, .diag] s u ∧
    ∀ k : Fin 16, k.val < s.sp.val → u.stack[k] = s.stack[k]

/-! ### Skips -/

/-- R110, R111. -/
def Obligations.SkipsOnImmediate : Prop :=
  ∀ (x : Reg) (nn : Byte) (s : State),
    (Spells (0x3000 + x.val * 256 + nn.toNat) (.seImm x nn) ∧ ∃ t, exec (.seImm x nn) s = .next t ∧
      SkippedIf (s.reg x = nn) s t ∧ SameExcept [.pc, .fsm, .diag] s t) ∧
    (Spells (0x4000 + x.val * 256 + nn.toNat) (.sneImm x nn) ∧ ∃ t, exec (.sneImm x nn) s = .next t ∧
      SkippedIf (s.reg x ≠ nn) s t ∧ SameExcept [.pc, .fsm, .diag] s t)

/-- R112, R113. -/
def Obligations.SkipsOnRegisters : Prop :=
  ∀ (x y : Reg) (s : State),
    (Spells (0x5000 + x.val * 256 + y.val * 16) (.seReg x y) ∧ ∃ t, exec (.seReg x y) s = .next t ∧
      SkippedIf (s.reg x = s.reg y) s t ∧ SameExcept [.pc, .fsm, .diag] s t) ∧
    (Spells (0x9000 + x.val * 256 + y.val * 16) (.sneReg x y) ∧ ∃ t, exec (.sneReg x y) s = .next t ∧
      SkippedIf (s.reg x ≠ s.reg y) s t ∧ SameExcept [.pc, .fsm, .diag] s t)

/-- R114, R115: the key tested is `VX mod 16`. -/
def Obligations.SkipsOnKey : Prop :=
  ∀ (x k : Reg) (s : State), (s.reg x).toNat % 16 = k.val →
    (Spells (0xE09E + x.val * 256) (.skp x) ∧ ∃ t, exec (.skp x) s = .next t ∧
      SkippedIf (s.key[k] = true) s t ∧ SameExcept [.pc, .fsm, .diag] s t) ∧
    (Spells (0xE0A1 + x.val * 256) (.sknp x) ∧ ∃ t, exec (.sknp x) s = .next t ∧
      SkippedIf (s.key[k] = false) s t ∧ SameExcept [.pc, .fsm, .diag] s t)

/-! ### Register load, arithmetic and logic -/

/-- R121, R122, R123. -/
def Obligations.LoadsAndAddImmediate : Prop :=
  ∀ (x y : Reg) (nn : Byte) (s : State),
    (Spells (0x6000 + x.val * 256 + nn.toNat) (.ldImm x nn) ∧ ∃ t, exec (.ldImm x nn) s = .next t ∧
      (∀ r, t.reg r = if r = x then nn else s.reg r) ∧ Advanced s t ∧ SameExcept [.v, .pc, .fsm, .diag] s t) ∧
    (Spells (0x7000 + x.val * 256 + nn.toNat) (.addImm x nn) ∧ ∃ t, exec (.addImm x nn) s = .next t ∧
      (∀ r, (t.reg r).toNat = if r = x then ((s.reg x).toNat + nn.toNat) % 256 else (s.reg r).toNat) ∧
      Advanced s t ∧ SameExcept [.v, .pc, .fsm, .diag] s t) ∧
    (Spells (0x8000 + x.val * 256 + y.val * 16) (.ldReg x y) ∧ ∃ t, exec (.ldReg x y) s = .next t ∧
      (∀ r, t.reg r = if r = x then s.reg y else s.reg r) ∧ Advanced s t ∧ SameExcept [.v, .pc, .fsm, .diag] s t)

/-- R124, R125, R126: bit by bit; `VF` is not touched unless it is `VX`. -/
def Obligations.LogicIsBitwise : Prop :=
  ∀ (x y : Reg) (s : State),
    (Spells (0x8001 + x.val * 256 + y.val * 16) (.orReg x y) ∧ ∃ t, exec (.orReg x y) s = .next t ∧
      (∀ k, (t.reg x).getLsbD k = ((s.reg x).getLsbD k || (s.reg y).getLsbD k)) ∧ (∀ r, r ≠ x → t.reg r = s.reg r) ∧
      Advanced s t ∧ SameExcept [.v, .pc, .fsm, .diag] s t) ∧
    (Spells (0x8002 + x.val * 256 + y.val * 16) (.andReg x y) ∧ ∃ t, exec (.andReg x y) s = .next t ∧
      (∀ k, (t.reg x).getLsbD k = ((s.reg x).getLsbD k && (s.reg y).getLsbD k)) ∧ (∀ r, r ≠ x → t.reg r = s.reg r) ∧
      Advanced s t ∧ SameExcept [.v, .pc, .fsm, .diag] s t) ∧
    (Spells (0x8003 + x.val * 256 + y.val * 16) (.xorReg x y) ∧ ∃ t, exec (.xorReg x y) s = .next t ∧
      (∀ k, (t.reg x).getLsbD k = ((s.reg x).getLsbD k ^^ (s.reg y).getLsbD k)) ∧ (∀ r, r ≠ x → t.reg r = s.reg r) ∧
      Advanced s t ∧ SameExcept [.v, .pc, .fsm, .diag] s t)

/-- R127: with `X = 15` only the carry remains. -/
def Obligations.AddRegisterSetsCarry : Prop :=
  ∀ (x y : Reg) (s : State), Spells (0x8004 + x.val * 256 + y.val * 16) (.addReg x y) ∧
    ∃ t, exec (.addReg x y) s = .next t ∧
      (∀ r, (t.reg r).toNat =
        if r = 15 then (if (s.reg x).toNat + (s.reg y).toNat > 255 then 1 else 0)
        else if r = x then ((s.reg x).toNat + (s.reg y).toNat) % 256 else (s.reg r).toNat) ∧
      Advanced s t ∧ SameExcept [.v, .pc, .fsm, .diag] s t

/-- R128, R130: the difference modulo 256, and `VF` is NOT borrow. -/
def Obligations.SubtractsSetNotBorrow : Prop :=
  ∀ (x y : Reg) (s : State),
    (Spells (0x8005 + x.val * 256 + y.val * 16) (.sub x y) ∧ ∃ t, exec (.sub x y) s = .next t ∧
      (∀ r, ((t.reg r).toNat : Int) =
        if r = 15 then (if (s.reg y).toNat > (s.reg x).toNat then 0 else 1)
        else if r = x then (((s.reg x).toNat : Int) - (s.reg y).toNat) % 256 else (s.reg r).toNat) ∧
      Advanced s t ∧ SameExcept [.v, .pc, .fsm, .diag] s t) ∧
    (Spells (0x8007 + x.val * 256 + y.val * 16) (.subn x y) ∧ ∃ t, exec (.subn x y) s = .next t ∧
      (∀ r, ((t.reg r).toNat : Int) =
        if r = 15 then (if (s.reg x).toNat > (s.reg y).toNat then 0 else 1)
        else if r = x then (((s.reg y).toNat : Int) - (s.reg x).toNat) % 256 else (s.reg r).toNat) ∧
      Advanced s t ∧ SameExcept [.v, .pc, .fsm, .diag] s t)

/-- R129, R131: whatever the `Y` digit is. -/
def Obligations.ShiftsSetBitOut : Prop :=
  ∀ (x y : Reg) (s : State),
    (Spells (0x8006 + x.val * 256 + y.val * 16) (.shr x y) ∧ ∃ t, exec (.shr x y) s = .next t ∧
      (∀ r, (t.reg r).toNat =
        if r = 15 then (s.reg x).toNat % 2 else if r = x then (s.reg x).toNat / 2 else (s.reg r).toNat) ∧
      Advanced s t ∧ SameExcept [.v, .pc, .fsm, .diag] s t) ∧
    (Spells (0x800E + x.val * 256 + y.val * 16) (.shl x y) ∧ ∃ t, exec (.shl x y) s = .next t ∧
      (∀ r, (t.reg r).toNat =
        if r = 15 then (s.reg x).toNat / 128 else if r = x then (s.reg x).toNat * 2 % 256 else (s.reg r).toNat) ∧
      Advanced s t ∧ SameExcept [.v, .pc, .fsm, .diag] s t)

/-- R132, whatever byte the random source hands out; which byte that is is a free value, and the counter of draws is the model's
(log entry 5). -/
def Obligations.RandomIsMaskedFreshByte : Prop :=
  ∀ (x : Reg) (nn : Byte) (s : State), Spells (0xC000 + x.val * 256 + nn.toNat) (.rnd x nn) ∧
    ∃ t, exec (.rnd x nn) s = .next t ∧ t.draws = s.draws + 1 ∧
      (∀ k, (t.reg x).getLsbD k = ((Config.randByte s.draws).getLsbD k && nn.getLsbD k)) ∧
      (∀ r, r ≠ x → t.reg r = s.reg r) ∧ Advanced s t ∧ SameExcept [.v, .pc, .fsm, .diag, .draws] s t

/-! ### Address register and memory -/

/-- R140, R142. -/
def Obligations.IndexLoads : Prop :=
  ∀ (nnn : BitVec 12) (x : Reg) (s : State),
    (Spells (0xA000 + nnn.toNat) (.ldIdx nnn) ∧ ∃ t, exec (.ldIdx nnn) s = .next t ∧ t.i.toNat = nnn.toNat ∧
      Advanced s t ∧ SameExcept [.i, .pc, .fsm, .diag] s t) ∧
    (Spells (0xF029 + x.val * 256) (.ldF x) ∧ ∃ t, exec (.ldF x) s = .next t ∧ t.i.toNat = 5 * (s.reg x).toNat ∧
      Advanced s t ∧ SameExcept [.i, .pc, .fsm, .diag] s t)

/-- R141. -/
def Obligations.IndexAddWrapsAndFlags : Prop :=
  ∀ (x : Reg) (s : State), Spells (0xF01E + x.val * 256) (.addIdx x) ∧
    ∃ t, exec (.addIdx x) s = .next t ∧ t.i.toNat = (s.i.toNat + (s.reg x).toNat) % 4096 ∧
      (∀ r, (t.reg r).toNat =
        if r = 15 then (if s.i.toNat + (s.reg x).toNat > 0x0FFF then 1 else 0) else (s.reg r).toNat) ∧
      Advanced s t ∧ SameExcept [.v, .i, .pc, .fsm, .diag] s t

/-- R143: the digits go to `I`, `I + 1`, `I + 2`, and no other byte changes. -/
def Obligations.DecimalDigitsAreStored : Prop :=
  ∀ (x : Reg) (s : State), Spells (0xF033 + x.val * 256) (.ldB x) ∧
    ∃ t, exec (.ldB x) s = .next t ∧
      (t.memRead (s.effAddr 0)).toNat = (s.reg x).toNat / 100 ∧
      (t.memRead (s.effAddr 1)).toNat = (s.reg x).toNat / 10 % 10 ∧
      (t.memRead (s.effAddr 2)).toNat = (s.reg x).toNat % 10 ∧
      (∀ a, (∀ k < 3, memIndex a ≠ memIndex (s.effAddr k)) → t.memRead a = s.memRead a) ∧
      Advanced s t ∧ SameExcept [.mem, .pc, .fsm, .diag] s t

/-- R144: `V0` to `VX` go to `I`, `I + 1`, ... `I + X`, no other byte changes, and `I` moves past them. -/
def Obligations.RegistersAreStored : Prop :=
  ∀ (x : Reg) (s : State), Spells (0xF055 + x.val * 256) (.stRegs x) ∧
    ∃ t, exec (.stRegs x) s = .next t ∧
      (∀ k : Reg, k ≤ x → t.memRead (s.effAddr k.val) = s.reg k) ∧
      (∀ a, (∀ k : Reg, k ≤ x → memIndex a ≠ memIndex (s.effAddr k.val)) → t.memRead a = s.memRead a) ∧
      t.i.toNat = (s.i.toNat + x.val + 1) % 4096 ∧ Advanced s t ∧ SameExcept [.mem, .i, .pc, .fsm, .diag] s t

/-- R145: `V0` to `VX` come from `I`, `I + 1`, ... `I + X`, and `I` moves past them. -/
def Obligations.RegistersAreLoaded : Prop :=
  ∀ (x : Reg) (s : State), Spells (0xF065 + x.val * 256) (.ldRegs x) ∧
    ∃ t, exec (.ldRegs x) s = .next t ∧
      (∀ r, t.reg r = if r ≤ x then s.memRead (s.effAddr r.val) else s.reg r) ∧
      t.i.toNat = (s.i.toNat + x.val + 1) % 4096 ∧ Advanced s t ∧ SameExcept [.v, .i, .pc, .fsm, .diag] s t

/-- The round trip of R145: a store, then any change of `V0` to `VX` and `I` put back, then a load, restores `V0` to `VX`. -/
def Obligations.StoreThenLoadRestoresRegisters : Prop :=
  ∀ (x : Reg) (s t u : State), exec (.stRegs x) s = .next t → SameExcept [.v, .i, .pc, .fsm, .diag] t u → u.i = s.i →
    ∃ w, exec (.ldRegs x) u = .next w ∧ w.i = t.i ∧ ∀ r, w.reg r = if r ≤ x then s.reg r else u.reg r

/-- A word that `FX55` stored is what a fetch at its address reads, whatever memory held before (`20_memory.md` R61). -/
def Obligations.StoredWordIsFetched : Prop :=
  ∀ (x k : Reg) (s t u : State), exec (.stRegs x) s = .next t → k < x → SameExcept [.pc] t u →
    memIndex u.pc.toNat = memIndex (s.effAddr k.val) →
    u.fetchWord.toNat = (s.reg k).toNat * 256 + (s.reg (k + 1)).toNat

/-! ### Framebuffer -/

/-- R150. -/
def Obligations.ClearScreen : Prop :=
  ∀ s : State, Spells 0x00E0 .cls ∧ ∃ t, exec .cls s = .next t ∧ (∀ x y, t.fb.pixel x y = false) ∧ t.dirty = true ∧
    Advanced s t ∧ SameExcept [.fb, .dirty, .pc, .fsm, .diag] s t

/-- R151, in closed form: exactly the pixels under 1 bits of the sprite are toggled, and `VF` says whether one of them was 1. -/
def Obligations.DrawTogglesSpritePixels : Prop :=
  ∀ (x y : Reg) (n : Nat) (s : State), n < 16 → Spells (0xD000 + x.val * 256 + y.val * 16 + n) (.drw x y n) ∧
    ∃ t, exec (.drw x y n) s = .next t ∧
      (∀ px py, (SpriteCovers s x y n px py → t.fb.pixel px py = !s.fb.pixel px py) ∧
        (¬SpriteCovers s x y n px py → t.fb.pixel px py = s.fb.pixel px py)) ∧
      ((∃ px py, SpriteCovers s x y n px py ∧ s.fb.pixel px py = true) → t.reg 15 = 1) ∧
      ((∀ px py, SpriteCovers s x y n px py → s.fb.pixel px py = false) → t.reg 15 = 0) ∧
      (∀ r, r ≠ 15 → t.reg r = s.reg r) ∧ t.dirty = true ∧
      Advanced s t ∧ SameExcept [.v, .fb, .dirty, .pc, .fsm, .diag] s t

/-- R152: the same draw twice restores the framebuffer, whatever it held; the second `VF` is 1 exactly when some sprite pixel
was 0 before the first. The first draw is a hypothesis (`DrawTogglesSpritePixels` says it answers); it writes `VF`, so the
coordinates are the same where neither register is `VF`. -/
def Obligations.DrawTwiceRestoresFramebuffer : Prop :=
  ∀ (x y : Reg) (n : Nat) (s t : State), n < 16 → x ≠ 15 → y ≠ 15 → exec (.drw x y n) s = .next t →
    ∃ u, exec (.drw x y n) t = .next u ∧ (∀ px py, u.fb.pixel px py = s.fb.pixel px py) ∧ u.dirty = true ∧
      (u.reg 15 = 1 ↔ ∃ px py, SpriteCovers s x y n px py ∧ s.fb.pixel px py = false) ∧
      (u.reg 15 = 0 ∨ u.reg 15 = 1)

/-! ### Timers and key wait -/

/-- R160, R162, R163. -/
def Obligations.TimerMoves : Prop :=
  ∀ (x : Reg) (s : State),
    (Spells (0xF007 + x.val * 256) (.ldVxDt x) ∧ ∃ t, exec (.ldVxDt x) s = .next t ∧
      (∀ r, t.reg r = if r = x then s.dt else s.reg r) ∧ Advanced s t ∧ SameExcept [.v, .pc, .fsm, .diag] s t) ∧
    (Spells (0xF015 + x.val * 256) (.ldDtVx x) ∧ ∃ t, exec (.ldDtVx x) s = .next t ∧ t.dt = s.reg x ∧
      Advanced s t ∧ SameExcept [.dt, .pc, .fsm, .diag] s t) ∧
    (Spells (0xF018 + x.val * 256) (.ldStVx x) ∧ ∃ t, exec (.ldStVx x) s = .next t ∧ t.st = s.reg x ∧
      Advanced s t ∧ SameExcept [.st, .pc, .fsm, .diag] s t)

/-- R161: with no key pressed the step waits; else `VX` takes the least pressed key. -/
def Obligations.KeyWaitTakesLeastKey : Prop :=
  ∀ (x : Reg) (s : State), Spells (0xF00A + x.val * 256) (.ldVxK x) ∧
    ((∀ k : Fin 16, s.key[k] = false) → ∃ t, exec (.ldVxK x) s = .next t ∧ t.pc = s.pc ∧ t.fsm = .awaitingKey ∧
      t.diag = none ∧ SameExcept [.fsm, .diag] s t) ∧
    (∀ k : Fin 16, s.key[k] = true → (∀ j : Fin 16, j < k → s.key[j] = false) →
      ∃ t, exec (.ldVxK x) s = .next t ∧ (∀ r, (t.reg r).toNat = if r = x then k.val else (s.reg r).toNat) ∧
        Advanced s t ∧ SameExcept [.v, .pc, .fsm, .diag] s t)
end

