-- ==== Sys2Proof/Laws/Decode.lean ====
section
/-! SUPPORT. The fields of a word and the formats of the encoder as numbers (`00_scope.md` R7, `30_encoding.md` R71, R78). -/

namespace Sys2Proof

/-! ### Fields -/

theorem fieldG_toNat (op : Word) : (fieldG op).toNat = op.toNat / 4096 := by
  have := op.isLt
  simp only [fieldG, BitVec.extractLsb'_toNat, Nat.shiftRight_eq_div_pow]
  omega

theorem fieldX_val (op : Word) : (fieldX op).val = op.toNat / 256 % 16 := by
  show (op.extractLsb' 8 4).toNat = _
  simp only [BitVec.extractLsb'_toNat, Nat.shiftRight_eq_div_pow]

theorem fieldY_val (op : Word) : (fieldY op).val = op.toNat / 16 % 16 := by
  show (op.extractLsb' 4 4).toNat = _
  simp only [BitVec.extractLsb'_toNat, Nat.shiftRight_eq_div_pow]

theorem fieldN_toNat (op : Word) : (fieldN op).toNat = op.toNat % 16 := by
  simp [fieldN, BitVec.extractLsb'_toNat]

theorem fieldNN_toNat (op : Word) : (fieldNN op).toNat = op.toNat % 256 := by
  simp [fieldNN, BitVec.extractLsb'_toNat]

theorem fieldNNN_toNat (op : Word) : (fieldNNN op).toNat = op.toNat % 4096 := by
  simp [fieldNNN, BitVec.extractLsb'_toNat]

/-! ### Formats -/

theorem append_toNat {m n : Nat} (a : BitVec m) (b : BitVec n) : (a ++ b).toNat = a.toNat * 2 ^ n + b.toNat := by
  rw [BitVec.toNat_append, Nat.shiftLeft_eq, Nat.mul_comm, ← Nat.two_pow_add_eq_or_of_lt b.isLt]

@[simp] theorem digit_toNat (r : Reg) : (digit r).toNat = r.val := rfl

theorem formatA_toNat (g : BitVec 4) (nnn : BitVec 12) : (formatA g nnn).toNat = g.toNat * 4096 + nnn.toNat := by
  show (g ++ nnn).toNat = _
  rw [append_toNat]; omega

theorem formatXB_toNat (g : BitVec 4) (x : Reg) (nn : Byte) :
    (formatXB g x nn).toNat = g.toNat * 4096 + x.val * 256 + nn.toNat := by
  show (g ++ digit x ++ nn).toNat = _
  rw [append_toNat, append_toNat, digit_toNat]
  omega

theorem formatXYN_toNat (g : BitVec 4) (x y : Reg) (n : BitVec 4) :
    (formatXYN g x y n).toNat = g.toNat * 4096 + x.val * 256 + y.val * 16 + n.toNat := by
  show (g ++ digit x ++ digit y ++ n).toNat = _
  rw [append_toNat, append_toNat, append_toNat, digit_toNat, digit_toNat]
  omega

theorem formatXF_toNat (g : BitVec 4) (x : Reg) (f : Byte) :
    (formatXF g x f).toNat = g.toNat * 4096 + x.val * 256 + f.toNat := formatXB_toNat g x f

/-! ### Bytes -/

theorem wordOfBytes_toNat (hi lo : Byte) : (wordOfBytes hi lo).toNat = hi.toNat * 256 + lo.toNat := by
  show (hi ++ lo).toNat = _
  rw [append_toNat]; omega

/-- Splitting a word into bytes and joining them again gives the word. -/
theorem wordOfBytes_split (op : Word) : wordOfBytes (op.extractLsb' 8 8) (op.extractLsb' 0 8) = op := by
  apply BitVec.eq_of_toNat_eq
  have := op.isLt
  rw [wordOfBytes_toNat]
  simp only [BitVec.extractLsb'_toNat, Nat.shiftRight_eq_div_pow]
  omega

/-- Joining two bytes and splitting the word gives the bytes. -/
theorem bytesOfWord_join (hi lo : Byte) : bytesOfWord (wordOfBytes hi lo) = [hi, lo] := by
  have h1 := hi.isLt
  have h2 := lo.isLt
  have hh : (wordOfBytes hi lo).extractLsb' 8 8 = hi := by
    apply BitVec.eq_of_toNat_eq
    simp only [BitVec.extractLsb'_toNat, Nat.shiftRight_eq_div_pow, wordOfBytes_toNat]
    omega
  have hl : (wordOfBytes hi lo).extractLsb' 0 8 = lo := by
    apply BitVec.eq_of_toNat_eq
    simp only [BitVec.extractLsb'_toNat, Nat.shiftRight_eq_div_pow, wordOfBytes_toNat]
    omega
  rw [bytesOfWord, hh, hl]

/-- Decoding the bytes of a word is decoding the word. -/
theorem decode_bytesOfWord (op : Word) (rest : List Byte) :
    decode (bytesOfWord op ++ rest) = match decodeWord op with
      | .ok i => .ok (i, rest)
      | .error e => .error e := by
  show (match decodeWord (wordOfBytes (op.extractLsb' 8 8) (op.extractLsb' 0 8)) with
      | .ok i => Except.ok (i, rest)
      | .error e => .error e) = _
  rw [wordOfBytes_split]

end Sys2Proof
end

