-- ==== Sys2Proof/Laws/State.lean ====
section
/-! SUPPORT. What each shared operation does to each field of the state: one lemma a field and operation, true by `rfl`. -/

namespace Sys2Proof.Machine

variable (s : State)

/-! ### `State.retire` -/

@[simp] theorem State.retire_mem (n : Word) : (s.retire n).mem = s.mem := rfl
@[simp] theorem State.retire_v (n : Word) : (s.retire n).v = s.v := rfl
@[simp] theorem State.retire_pc (n : Word) : (s.retire n).pc = n := rfl
@[simp] theorem State.retire_i (n : Word) : (s.retire n).i = s.i := rfl
@[simp] theorem State.retire_stack (n : Word) : (s.retire n).stack = s.stack := rfl
@[simp] theorem State.retire_sp (n : Word) : (s.retire n).sp = s.sp := rfl
@[simp] theorem State.retire_dt (n : Word) : (s.retire n).dt = s.dt := rfl
@[simp] theorem State.retire_st (n : Word) : (s.retire n).st = s.st := rfl
@[simp] theorem State.retire_fb (n : Word) : (s.retire n).fb = s.fb := rfl
@[simp] theorem State.retire_dirty (n : Word) : (s.retire n).dirty = s.dirty := rfl
@[simp] theorem State.retire_key (n : Word) : (s.retire n).key = s.key := rfl
@[simp] theorem State.retire_fsm (n : Word) : (s.retire n).fsm = Fsm.running := rfl
@[simp] theorem State.retire_diag (n : Word) : (s.retire n).diag = none := rfl
@[simp] theorem State.retire_reported (n : Word) : (s.retire n).reported = s.reported := rfl
@[simp] theorem State.retire_draws (n : Word) : (s.retire n).draws = s.draws := rfl

/-! ### `State.advance` -/

@[simp] theorem State.advance_mem : s.advance.mem = s.mem := rfl
@[simp] theorem State.advance_v : s.advance.v = s.v := rfl
@[simp] theorem State.advance_pc : s.advance.pc = s.pc + 2 := rfl
@[simp] theorem State.advance_i : s.advance.i = s.i := rfl
@[simp] theorem State.advance_stack : s.advance.stack = s.stack := rfl
@[simp] theorem State.advance_sp : s.advance.sp = s.sp := rfl
@[simp] theorem State.advance_dt : s.advance.dt = s.dt := rfl
@[simp] theorem State.advance_st : s.advance.st = s.st := rfl
@[simp] theorem State.advance_fb : s.advance.fb = s.fb := rfl
@[simp] theorem State.advance_dirty : s.advance.dirty = s.dirty := rfl
@[simp] theorem State.advance_key : s.advance.key = s.key := rfl
@[simp] theorem State.advance_fsm : s.advance.fsm = Fsm.running := rfl
@[simp] theorem State.advance_diag : s.advance.diag = none := rfl
@[simp] theorem State.advance_reported : s.advance.reported = s.reported := rfl
@[simp] theorem State.advance_draws : s.advance.draws = s.draws := rfl

/-! ### `State.skipIf` -/

@[simp] theorem State.skipIf_mem (c : Bool) : (s.skipIf c).mem = s.mem := rfl
@[simp] theorem State.skipIf_v (c : Bool) : (s.skipIf c).v = s.v := rfl
@[simp] theorem State.skipIf_pc (c : Bool) : (s.skipIf c).pc = if c then s.pc + 4 else s.pc + 2 := rfl
@[simp] theorem State.skipIf_i (c : Bool) : (s.skipIf c).i = s.i := rfl
@[simp] theorem State.skipIf_stack (c : Bool) : (s.skipIf c).stack = s.stack := rfl
@[simp] theorem State.skipIf_sp (c : Bool) : (s.skipIf c).sp = s.sp := rfl
@[simp] theorem State.skipIf_dt (c : Bool) : (s.skipIf c).dt = s.dt := rfl
@[simp] theorem State.skipIf_st (c : Bool) : (s.skipIf c).st = s.st := rfl
@[simp] theorem State.skipIf_fb (c : Bool) : (s.skipIf c).fb = s.fb := rfl
@[simp] theorem State.skipIf_dirty (c : Bool) : (s.skipIf c).dirty = s.dirty := rfl
@[simp] theorem State.skipIf_key (c : Bool) : (s.skipIf c).key = s.key := rfl
@[simp] theorem State.skipIf_fsm (c : Bool) : (s.skipIf c).fsm = Fsm.running := rfl
@[simp] theorem State.skipIf_diag (c : Bool) : (s.skipIf c).diag = none := rfl
@[simp] theorem State.skipIf_reported (c : Bool) : (s.skipIf c).reported = s.reported := rfl
@[simp] theorem State.skipIf_draws (c : Bool) : (s.skipIf c).draws = s.draws := rfl

/-! ### `State.await` -/

@[simp] theorem State.await_mem : s.await.mem = s.mem := rfl
@[simp] theorem State.await_v : s.await.v = s.v := rfl
@[simp] theorem State.await_pc : s.await.pc = s.pc := rfl
@[simp] theorem State.await_i : s.await.i = s.i := rfl
@[simp] theorem State.await_stack : s.await.stack = s.stack := rfl
@[simp] theorem State.await_sp : s.await.sp = s.sp := rfl
@[simp] theorem State.await_dt : s.await.dt = s.dt := rfl
@[simp] theorem State.await_st : s.await.st = s.st := rfl
@[simp] theorem State.await_fb : s.await.fb = s.fb := rfl
@[simp] theorem State.await_dirty : s.await.dirty = s.dirty := rfl
@[simp] theorem State.await_key : s.await.key = s.key := rfl
@[simp] theorem State.await_fsm : s.await.fsm = Fsm.awaitingKey := rfl
@[simp] theorem State.await_diag : s.await.diag = none := rfl
@[simp] theorem State.await_reported : s.await.reported = s.reported := rfl
@[simp] theorem State.await_draws : s.await.draws = s.draws := rfl

/-! ### `State.report` -/

@[simp] theorem State.report_mem (k : DiagKind) (op : Word) : (s.report k op).mem = s.mem := rfl
@[simp] theorem State.report_v (k : DiagKind) (op : Word) : (s.report k op).v = s.v := rfl
@[simp] theorem State.report_pc (k : DiagKind) (op : Word) : (s.report k op).pc = s.pc + 2 := rfl
@[simp] theorem State.report_i (k : DiagKind) (op : Word) : (s.report k op).i = s.i := rfl
@[simp] theorem State.report_stack (k : DiagKind) (op : Word) : (s.report k op).stack = s.stack := rfl
@[simp] theorem State.report_sp (k : DiagKind) (op : Word) : (s.report k op).sp = s.sp := rfl
@[simp] theorem State.report_dt (k : DiagKind) (op : Word) : (s.report k op).dt = s.dt := rfl
@[simp] theorem State.report_st (k : DiagKind) (op : Word) : (s.report k op).st = s.st := rfl
@[simp] theorem State.report_fb (k : DiagKind) (op : Word) : (s.report k op).fb = s.fb := rfl
@[simp] theorem State.report_dirty (k : DiagKind) (op : Word) : (s.report k op).dirty = s.dirty := rfl
@[simp] theorem State.report_key (k : DiagKind) (op : Word) : (s.report k op).key = s.key := rfl
@[simp] theorem State.report_fsm (k : DiagKind) (op : Word) : (s.report k op).fsm = Fsm.running := rfl
@[simp] theorem State.report_diag (k : DiagKind) (op : Word) : (s.report k op).diag = some ⟨k, op, s.pc⟩ := rfl
@[simp] theorem State.report_reported (k : DiagKind) (op : Word) : (s.report k op).reported = true := rfl
@[simp] theorem State.report_draws (k : DiagKind) (op : Word) : (s.report k op).draws = s.draws := rfl
@[simp] theorem State.reportUnknown_eq (op : Word) : s.reportUnknown op = s.report .unknownOpcode op := rfl

/-! ### `State.setReg` -/

@[simp] theorem State.setReg_mem (r : Reg) (b : Byte) : (s.setReg r b).mem = s.mem := rfl
@[simp] theorem State.setReg_v (r : Reg) (b : Byte) : (s.setReg r b).v = s.v.set r b := rfl
@[simp] theorem State.setReg_pc (r : Reg) (b : Byte) : (s.setReg r b).pc = s.pc := rfl
@[simp] theorem State.setReg_i (r : Reg) (b : Byte) : (s.setReg r b).i = s.i := rfl
@[simp] theorem State.setReg_stack (r : Reg) (b : Byte) : (s.setReg r b).stack = s.stack := rfl
@[simp] theorem State.setReg_sp (r : Reg) (b : Byte) : (s.setReg r b).sp = s.sp := rfl
@[simp] theorem State.setReg_dt (r : Reg) (b : Byte) : (s.setReg r b).dt = s.dt := rfl
@[simp] theorem State.setReg_st (r : Reg) (b : Byte) : (s.setReg r b).st = s.st := rfl
@[simp] theorem State.setReg_fb (r : Reg) (b : Byte) : (s.setReg r b).fb = s.fb := rfl
@[simp] theorem State.setReg_dirty (r : Reg) (b : Byte) : (s.setReg r b).dirty = s.dirty := rfl
@[simp] theorem State.setReg_key (r : Reg) (b : Byte) : (s.setReg r b).key = s.key := rfl
@[simp] theorem State.setReg_fsm (r : Reg) (b : Byte) : (s.setReg r b).fsm = s.fsm := rfl
@[simp] theorem State.setReg_diag (r : Reg) (b : Byte) : (s.setReg r b).diag = s.diag := rfl
@[simp] theorem State.setReg_reported (r : Reg) (b : Byte) : (s.setReg r b).reported = s.reported := rfl
@[simp] theorem State.setReg_draws (r : Reg) (b : Byte) : (s.setReg r b).draws = s.draws := rfl

/-! ### `State.setFlag` -/

@[simp] theorem State.setFlag_mem (f : Bool) : (s.setFlag f).mem = s.mem := rfl
@[simp] theorem State.setFlag_v (f : Bool) : (s.setFlag f).v = s.v.set flagReg (flagByte f) := rfl
@[simp] theorem State.setFlag_pc (f : Bool) : (s.setFlag f).pc = s.pc := rfl
@[simp] theorem State.setFlag_i (f : Bool) : (s.setFlag f).i = s.i := rfl
@[simp] theorem State.setFlag_stack (f : Bool) : (s.setFlag f).stack = s.stack := rfl
@[simp] theorem State.setFlag_sp (f : Bool) : (s.setFlag f).sp = s.sp := rfl
@[simp] theorem State.setFlag_dt (f : Bool) : (s.setFlag f).dt = s.dt := rfl
@[simp] theorem State.setFlag_st (f : Bool) : (s.setFlag f).st = s.st := rfl
@[simp] theorem State.setFlag_fb (f : Bool) : (s.setFlag f).fb = s.fb := rfl
@[simp] theorem State.setFlag_dirty (f : Bool) : (s.setFlag f).dirty = s.dirty := rfl
@[simp] theorem State.setFlag_key (f : Bool) : (s.setFlag f).key = s.key := rfl
@[simp] theorem State.setFlag_fsm (f : Bool) : (s.setFlag f).fsm = s.fsm := rfl
@[simp] theorem State.setFlag_diag (f : Bool) : (s.setFlag f).diag = s.diag := rfl
@[simp] theorem State.setFlag_reported (f : Bool) : (s.setFlag f).reported = s.reported := rfl
@[simp] theorem State.setFlag_draws (f : Bool) : (s.setFlag f).draws = s.draws := rfl

/-! ### `State.setRegFlag` -/

@[simp] theorem State.setRegFlag_mem (r : Reg) (b : Byte) (f : Bool) : (s.setRegFlag r b f).mem = s.mem := rfl
@[simp] theorem State.setRegFlag_v (r : Reg) (b : Byte) (f : Bool) : (s.setRegFlag r b f).v = (s.v.set r b).set flagReg (flagByte f) := rfl
@[simp] theorem State.setRegFlag_pc (r : Reg) (b : Byte) (f : Bool) : (s.setRegFlag r b f).pc = s.pc := rfl
@[simp] theorem State.setRegFlag_i (r : Reg) (b : Byte) (f : Bool) : (s.setRegFlag r b f).i = s.i := rfl
@[simp] theorem State.setRegFlag_stack (r : Reg) (b : Byte) (f : Bool) : (s.setRegFlag r b f).stack = s.stack := rfl
@[simp] theorem State.setRegFlag_sp (r : Reg) (b : Byte) (f : Bool) : (s.setRegFlag r b f).sp = s.sp := rfl
@[simp] theorem State.setRegFlag_dt (r : Reg) (b : Byte) (f : Bool) : (s.setRegFlag r b f).dt = s.dt := rfl
@[simp] theorem State.setRegFlag_st (r : Reg) (b : Byte) (f : Bool) : (s.setRegFlag r b f).st = s.st := rfl
@[simp] theorem State.setRegFlag_fb (r : Reg) (b : Byte) (f : Bool) : (s.setRegFlag r b f).fb = s.fb := rfl
@[simp] theorem State.setRegFlag_dirty (r : Reg) (b : Byte) (f : Bool) : (s.setRegFlag r b f).dirty = s.dirty := rfl
@[simp] theorem State.setRegFlag_key (r : Reg) (b : Byte) (f : Bool) : (s.setRegFlag r b f).key = s.key := rfl
@[simp] theorem State.setRegFlag_fsm (r : Reg) (b : Byte) (f : Bool) : (s.setRegFlag r b f).fsm = s.fsm := rfl
@[simp] theorem State.setRegFlag_diag (r : Reg) (b : Byte) (f : Bool) : (s.setRegFlag r b f).diag = s.diag := rfl
@[simp] theorem State.setRegFlag_reported (r : Reg) (b : Byte) (f : Bool) : (s.setRegFlag r b f).reported = s.reported := rfl
@[simp] theorem State.setRegFlag_draws (r : Reg) (b : Byte) (f : Bool) : (s.setRegFlag r b f).draws = s.draws := rfl

/-! ### `State.setI` -/

@[simp] theorem State.setI_mem (n : Nat) : (s.setI n).mem = s.mem := rfl
@[simp] theorem State.setI_v (n : Nat) : (s.setI n).v = s.v := rfl
@[simp] theorem State.setI_pc (n : Nat) : (s.setI n).pc = s.pc := rfl
@[simp] theorem State.setI_i (n : Nat) : (s.setI n).i = BitVec.ofNat 16 (n % 4096) := rfl
@[simp] theorem State.setI_stack (n : Nat) : (s.setI n).stack = s.stack := rfl
@[simp] theorem State.setI_sp (n : Nat) : (s.setI n).sp = s.sp := rfl
@[simp] theorem State.setI_dt (n : Nat) : (s.setI n).dt = s.dt := rfl
@[simp] theorem State.setI_st (n : Nat) : (s.setI n).st = s.st := rfl
@[simp] theorem State.setI_fb (n : Nat) : (s.setI n).fb = s.fb := rfl
@[simp] theorem State.setI_dirty (n : Nat) : (s.setI n).dirty = s.dirty := rfl
@[simp] theorem State.setI_key (n : Nat) : (s.setI n).key = s.key := rfl
@[simp] theorem State.setI_fsm (n : Nat) : (s.setI n).fsm = s.fsm := rfl
@[simp] theorem State.setI_diag (n : Nat) : (s.setI n).diag = s.diag := rfl
@[simp] theorem State.setI_reported (n : Nat) : (s.setI n).reported = s.reported := rfl
@[simp] theorem State.setI_draws (n : Nat) : (s.setI n).draws = s.draws := rfl

/-! ### `State.memWrite` -/

@[simp] theorem State.memWrite_mem (a : Nat) (b : Byte) : (s.memWrite a b).mem = s.mem.write (memIndex a) b := rfl
@[simp] theorem State.memWrite_v (a : Nat) (b : Byte) : (s.memWrite a b).v = s.v := rfl
@[simp] theorem State.memWrite_pc (a : Nat) (b : Byte) : (s.memWrite a b).pc = s.pc := rfl
@[simp] theorem State.memWrite_i (a : Nat) (b : Byte) : (s.memWrite a b).i = s.i := rfl
@[simp] theorem State.memWrite_stack (a : Nat) (b : Byte) : (s.memWrite a b).stack = s.stack := rfl
@[simp] theorem State.memWrite_sp (a : Nat) (b : Byte) : (s.memWrite a b).sp = s.sp := rfl
@[simp] theorem State.memWrite_dt (a : Nat) (b : Byte) : (s.memWrite a b).dt = s.dt := rfl
@[simp] theorem State.memWrite_st (a : Nat) (b : Byte) : (s.memWrite a b).st = s.st := rfl
@[simp] theorem State.memWrite_fb (a : Nat) (b : Byte) : (s.memWrite a b).fb = s.fb := rfl
@[simp] theorem State.memWrite_dirty (a : Nat) (b : Byte) : (s.memWrite a b).dirty = s.dirty := rfl
@[simp] theorem State.memWrite_key (a : Nat) (b : Byte) : (s.memWrite a b).key = s.key := rfl
@[simp] theorem State.memWrite_fsm (a : Nat) (b : Byte) : (s.memWrite a b).fsm = s.fsm := rfl
@[simp] theorem State.memWrite_diag (a : Nat) (b : Byte) : (s.memWrite a b).diag = s.diag := rfl
@[simp] theorem State.memWrite_reported (a : Nat) (b : Byte) : (s.memWrite a b).reported = s.reported := rfl
@[simp] theorem State.memWrite_draws (a : Nat) (b : Byte) : (s.memWrite a b).draws = s.draws := rfl

/-! ### `State.push` -/

@[simp] theorem State.push_mem (w : Word) (h : s.sp.val < 16) : (s.push w h).mem = s.mem := rfl
@[simp] theorem State.push_v (w : Word) (h : s.sp.val < 16) : (s.push w h).v = s.v := rfl
@[simp] theorem State.push_pc (w : Word) (h : s.sp.val < 16) : (s.push w h).pc = s.pc := rfl
@[simp] theorem State.push_i (w : Word) (h : s.sp.val < 16) : (s.push w h).i = s.i := rfl
@[simp] theorem State.push_stack (w : Word) (h : s.sp.val < 16) : (s.push w h).stack = s.stack.set s.sp.val w h := rfl
@[simp] theorem State.push_sp (w : Word) (h : s.sp.val < 16) : (s.push w h).sp = ⟨s.sp.val + 1, Nat.succ_lt_succ h⟩ := rfl
@[simp] theorem State.push_dt (w : Word) (h : s.sp.val < 16) : (s.push w h).dt = s.dt := rfl
@[simp] theorem State.push_st (w : Word) (h : s.sp.val < 16) : (s.push w h).st = s.st := rfl
@[simp] theorem State.push_fb (w : Word) (h : s.sp.val < 16) : (s.push w h).fb = s.fb := rfl
@[simp] theorem State.push_dirty (w : Word) (h : s.sp.val < 16) : (s.push w h).dirty = s.dirty := rfl
@[simp] theorem State.push_key (w : Word) (h : s.sp.val < 16) : (s.push w h).key = s.key := rfl
@[simp] theorem State.push_fsm (w : Word) (h : s.sp.val < 16) : (s.push w h).fsm = s.fsm := rfl
@[simp] theorem State.push_diag (w : Word) (h : s.sp.val < 16) : (s.push w h).diag = s.diag := rfl
@[simp] theorem State.push_reported (w : Word) (h : s.sp.val < 16) : (s.push w h).reported = s.reported := rfl
@[simp] theorem State.push_draws (w : Word) (h : s.sp.val < 16) : (s.push w h).draws = s.draws := rfl

/-! ### `State.pop` -/

@[simp] theorem State.pop_mem : s.pop.mem = s.mem := rfl
@[simp] theorem State.pop_v : s.pop.v = s.v := rfl
@[simp] theorem State.pop_pc : s.pop.pc = s.pc := rfl
@[simp] theorem State.pop_i : s.pop.i = s.i := rfl
@[simp] theorem State.pop_stack : s.pop.stack = s.stack := rfl
@[simp] theorem State.pop_sp : s.pop.sp = ⟨s.sp.val - 1, by have := s.sp.isLt; omega⟩ := rfl
@[simp] theorem State.pop_dt : s.pop.dt = s.dt := rfl
@[simp] theorem State.pop_st : s.pop.st = s.st := rfl
@[simp] theorem State.pop_fb : s.pop.fb = s.fb := rfl
@[simp] theorem State.pop_dirty : s.pop.dirty = s.dirty := rfl
@[simp] theorem State.pop_key : s.pop.key = s.key := rfl
@[simp] theorem State.pop_fsm : s.pop.fsm = s.fsm := rfl
@[simp] theorem State.pop_diag : s.pop.diag = s.diag := rfl
@[simp] theorem State.pop_reported : s.pop.reported = s.reported := rfl
@[simp] theorem State.pop_draws : s.pop.draws = s.draws := rfl

/-! ### `State.memWriteList`: only memory changes -/

theorem State.memWriteList_eq (a : Nat) (bs : List Byte) :
    s.memWriteList a bs = { s with mem := (s.memWriteList a bs).mem } := by
  induction bs generalizing s a with
  | nil => rfl
  | cons b bs ih => exact ih (s.memWrite a b) (a + 1)

@[simp] theorem State.memWriteList_v (a : Nat) (bs : List Byte) : (s.memWriteList a bs).v = s.v := by
  rw [State.memWriteList_eq]
@[simp] theorem State.memWriteList_pc (a : Nat) (bs : List Byte) : (s.memWriteList a bs).pc = s.pc := by
  rw [State.memWriteList_eq]
@[simp] theorem State.memWriteList_i (a : Nat) (bs : List Byte) : (s.memWriteList a bs).i = s.i := by
  rw [State.memWriteList_eq]
@[simp] theorem State.memWriteList_stack (a : Nat) (bs : List Byte) : (s.memWriteList a bs).stack = s.stack := by
  rw [State.memWriteList_eq]
@[simp] theorem State.memWriteList_sp (a : Nat) (bs : List Byte) : (s.memWriteList a bs).sp = s.sp := by
  rw [State.memWriteList_eq]
@[simp] theorem State.memWriteList_dt (a : Nat) (bs : List Byte) : (s.memWriteList a bs).dt = s.dt := by
  rw [State.memWriteList_eq]
@[simp] theorem State.memWriteList_st (a : Nat) (bs : List Byte) : (s.memWriteList a bs).st = s.st := by
  rw [State.memWriteList_eq]
@[simp] theorem State.memWriteList_fb (a : Nat) (bs : List Byte) : (s.memWriteList a bs).fb = s.fb := by
  rw [State.memWriteList_eq]
@[simp] theorem State.memWriteList_dirty (a : Nat) (bs : List Byte) : (s.memWriteList a bs).dirty = s.dirty := by
  rw [State.memWriteList_eq]
@[simp] theorem State.memWriteList_key (a : Nat) (bs : List Byte) : (s.memWriteList a bs).key = s.key := by
  rw [State.memWriteList_eq]
@[simp] theorem State.memWriteList_fsm (a : Nat) (bs : List Byte) : (s.memWriteList a bs).fsm = s.fsm := by
  rw [State.memWriteList_eq]
@[simp] theorem State.memWriteList_diag (a : Nat) (bs : List Byte) : (s.memWriteList a bs).diag = s.diag := by
  rw [State.memWriteList_eq]
@[simp] theorem State.memWriteList_reported (a : Nat) (bs : List Byte) : (s.memWriteList a bs).reported = s.reported := by
  rw [State.memWriteList_eq]
@[simp] theorem State.memWriteList_draws (a : Nat) (bs : List Byte) : (s.memWriteList a bs).draws = s.draws := by
  rw [State.memWriteList_eq]

end Sys2Proof.Machine
end

