-- ==== Sys2Proof/Laws/Memory.lean ====
section
/-! SUPPORT. Memory: a read returns the last write to its cell, a write keeps the canonical form, and equal reads are equal
memories (`20_memory.md` R50, R55). -/

namespace Sys2Proof.Machine

theorem memIndex_lt (a : Nat) : memIndex a < 4096 := Nat.mod_lt _ (by decide)

@[simp] theorem memIndex_memIndex (a : Nat) : memIndex (memIndex a) = memIndex a := Nat.mod_mod _ _

/-! ### One cell -/

theorem Memory.read_filter_ne (m : Memory) {a c : Nat} (h : c ≠ a) :
    Memory.read (m.filter (fun d => d.1 != a)) c = m.read c := by
  induction m with
  | nil => rfl
  | cons d m ih =>
    by_cases hd : d.1 = a
    · simp [Memory.read, hd, ih, Ne.symm h]
    · simp [Memory.read, hd, ih]

theorem Memory.read_filter_self (m : Memory) (a : Nat) :
    Memory.read (m.filter (fun d => d.1 != a)) a = Memory.unlisted a := by
  induction m with
  | nil => rfl
  | cons d m ih =>
    by_cases hd : d.1 = a
    · simp [hd, ih]
    · simp [Memory.read, hd, ih]

theorem Memory.read_place (m : Memory) (a c : Nat) (b : Byte) (h : ∀ d ∈ m, d.1 ≠ a) :
    Memory.read (m.place a b) c = if c = a then b else m.read c := by
  induction m with
  | nil => simp [Memory.place, Memory.read, eq_comm]
  | cons d m ih =>
    have hd : d.1 ≠ a := h d (by simp)
    have ih := ih (fun e he => h e (by simp [he]))
    simp only [Memory.place]
    split
    · simp only [Memory.read, eq_comm (a := a)]
    · simp only [Memory.read, ih]
      by_cases hc : c = a
      · subst hc; simp [hd]
      · simp [hc]

/-- A read after a write: the written byte at its cell, what was there before at every other. -/
theorem Memory.read_write (m : Memory) (a c : Nat) (b : Byte) :
    (m.write a b).read c = if c = a then b else m.read c := by
  have hne : ∀ d ∈ m.filter (fun d => d.1 != a), d.1 ≠ a := by simp
  unfold Memory.write
  by_cases hc : c = a
  · subst hc
    split
    · next hb => simp [Memory.read_filter_self, hb]
    · simp [Memory.read_place _ _ _ _ hne]
  · split
    · simp [hc, Memory.read_filter_ne]
    · simp [Memory.read_place _ _ _ _ hne, hc, Memory.read_filter_ne _ hc]

/-! ### The canonical form -/

theorem Memory.mem_place (m : Memory) (a : Nat) (b : Byte) (d : Host.Cell) :
    d ∈ Memory.place m a b ↔ d = (a, b) ∨ d ∈ m := by
  induction m with
  | nil => simp [Memory.place]
  | cons e m ih =>
    simp only [Memory.place]
    split
    · simp
    · simp only [List.mem_cons, ih]; tauto

theorem Memory.place_wf {m : Memory} {a : Nat} {b : Byte} (hm : m.wf) (ha : a < 4096) (hb : b ≠ Memory.unlisted a)
    (hne : ∀ d ∈ m, d.1 ≠ a) : Memory.wf (m.place a b) := by
  refine ⟨?_, fun c hc => ?_⟩
  · obtain ⟨hs, -⟩ := hm
    induction m with
    | nil => simp [Memory.place]
    | cons e m ih =>
      obtain ⟨he, hs⟩ := List.pairwise_cons.1 hs
      simp only [Memory.place]
      split
      · next hlt =>
        refine List.pairwise_cons.2 ⟨fun d hd => ?_, List.pairwise_cons.2 ⟨he, hs⟩⟩
        rcases List.mem_cons.1 hd with rfl | hd
        · exact hlt
        · exact Nat.lt_trans hlt (he d hd)
      · next hge =>
        have hea : e.1 ≠ a := hne e (by simp)
        refine List.pairwise_cons.2 ⟨fun d hd => ?_, ih (fun d hd => hne d (by simp [hd])) hs⟩
        rcases (Memory.mem_place m a b d).1 hd with rfl | hd
        · show e.1 < a; omega
        · exact he d hd
  · rcases (Memory.mem_place m a b c).1 hc with rfl | hc
    · exact ⟨ha, hb⟩
    · exact hm.2 c hc

theorem Memory.filter_wf {m : Memory} (hm : m.wf) (p : Host.Cell → Bool) : Memory.wf (m.filter p) :=
  ⟨hm.1.filter p, fun c hc => hm.2 c (List.mem_filter.1 hc).1⟩

/-- A write to a cell of memory keeps the canonical form. -/
theorem Memory.write_wf {m : Memory} {a : Nat} {b : Byte} (hm : m.wf) (ha : a < 4096) : (m.write a b).wf := by
  unfold Memory.write
  split
  · exact Memory.filter_wf hm _
  · next hb => exact Memory.place_wf (Memory.filter_wf hm _) ha hb (by simp)

theorem State.memWrite_wf {s : State} (h : s.mem.wf) (a : Nat) (b : Byte) : (s.memWrite a b).mem.wf :=
  Memory.write_wf h (memIndex_lt a)

theorem State.memWriteList_wf {s : State} (h : s.mem.wf) (a : Nat) (bs : List Byte) : (s.memWriteList a bs).mem.wf := by
  induction bs generalizing s a with
  | nil => exact h
  | cons b bs ih => exact ih (State.memWrite_wf h a b) (a + 1)

theorem State.reset_mem_wf : State.reset.mem.wf := by simp [State.reset, Memory.wf]

/-! ### `MemRead` and `MemWrite` -/

/-- `MemRead` after `MemWrite`. -/
theorem State.memRead_memWrite (s : State) (a c : Nat) (b : Byte) :
    (s.memWrite a b).memRead c = if memIndex c = memIndex a then b else s.memRead c :=
  Memory.read_write _ _ _ _

theorem State.memRead_congr {s t : State} (h : t.mem = s.mem) (a : Nat) : t.memRead a = s.memRead a := by
  simp [State.memRead, h]

theorem State.memRead_memIndex (s : State) (a : Nat) : s.memRead (memIndex a) = s.memRead a := by
  simp [State.memRead]

/-- A list of bytes leaves every cell it does not reach as it was. -/
theorem State.memRead_memWriteList_other (s : State) (a c : Nat) (bs : List Byte)
    (h : ∀ k < bs.length, memIndex c ≠ memIndex (a + k)) : (s.memWriteList a bs).memRead c = s.memRead c := by
  induction bs generalizing s a with
  | nil => rfl
  | cons b bs ih =>
    have h0 := h 0 (by simp)
    rw [State.memWriteList, ih _ _ (fun k hk => ?_), State.memRead_memWrite, if_neg (by simpa using h0)]
    have := h (k + 1) (by simpa using hk)
    rwa [show a + (k + 1) = a + 1 + k by omega] at this

/-- A list of at most 4096 bytes puts its byte `k` at `a + k`. -/
theorem State.memRead_memWriteList_at (s : State) (a k : Nat) (bs : List Byte) (hl : bs.length ≤ 4096)
    (hk : k < bs.length) : (s.memWriteList a bs).memRead (a + k) = bs[k] := by
  induction bs generalizing s a k with
  | nil => simp at hk
  | cons b bs ih =>
    simp only [List.length_cons] at hl hk
    rw [State.memWriteList]
    cases k with
    | zero =>
      rw [State.memRead_memWriteList_other _ _ _ _ (fun j hj => ?_), State.memRead_memWrite]
      · simp
      · simp only [memIndex, Config.memSize]; omega
    | succ k =>
      rw [show a + (k + 1) = a + 1 + k by omega, ih _ _ _ (by omega) (by omega)]
      simp

/-! ### Equal reads are equal memories -/

theorem Memory.read_of_all_gt {m : Memory} {a : Nat} (h : ∀ d ∈ m, a < d.1) : m.read a = Memory.unlisted a := by
  induction m with
  | nil => rfl
  | cons d m ih =>
    have := h d (by simp)
    rw [Memory.read, if_neg (by omega), ih (fun e he => h e (by simp [he]))]

/-- Two memories in canonical form that read alike at every cell are the same list. -/
theorem Memory.ext_of_read {m n : Memory} (hm : m.wf) (hn : n.wf) (h : ∀ a < 4096, m.read a = n.read a) : m = n := by
  induction m generalizing n with
  | nil =>
    cases n with
    | nil => rfl
    | cons d n =>
      have hd := hn.2 d (by simp)
      have := h d.1 hd.1
      simp only [Memory.read, if_pos] at this
      exact absurd this.symm hd.2
  | cons c m ih =>
    have hc := hm.2 c (by simp)
    obtain ⟨hcm, hms⟩ := List.pairwise_cons.1 hm.1
    cases n with
    | nil =>
      have := h c.1 hc.1
      simp only [Memory.read, if_pos] at this
      exact absurd this hc.2
    | cons d n =>
      have hd := hn.2 d (by simp)
      obtain ⟨hdn, hns⟩ := List.pairwise_cons.1 hn.1
      have hcd : c.1 = d.1 := by
        rcases Nat.lt_trichotomy c.1 d.1 with hlt | heq | hgt
        · have := h c.1 hc.1
          rw [Memory.read, if_pos rfl, Memory.read_of_all_gt (m := d :: n)] at this
          · exact absurd this hc.2
          · intro e he
            rcases List.mem_cons.1 he with rfl | he
            · exact hlt
            · exact Nat.lt_trans hlt (hdn e he)
        · exact heq
        · have := h d.1 hd.1
          rw [Memory.read_of_all_gt (m := c :: m), Memory.read, if_pos rfl] at this
          · exact absurd this.symm hd.2
          · intro e he
            rcases List.mem_cons.1 he with rfl | he
            · exact hgt
            · exact Nat.lt_trans hgt (hcm e he)
      have hval : c.2 = d.2 := by
        have := h c.1 hc.1
        simpa [Memory.read, hcd] using this
      have hcd' : c = d := Prod.ext hcd hval
      subst hcd'
      congr 1
      refine ih ⟨hms, fun e he => hm.2 e (by simp [he])⟩ ⟨hns, fun e he => hn.2 e (by simp [he])⟩ fun a ha => ?_
      by_cases hac : c.1 = a
      · subst hac
        rw [Memory.read_of_all_gt hcm, Memory.read_of_all_gt hdn]
      · have := h a ha
        simpa [Memory.read, hac] using this

end Sys2Proof.Machine
end

