-- ==== Sys2Proof/Laws/Regs.lean ====
section
/-! SUPPORT. Registers, the key scan, the call stack and the address register: what a read gives after each operation. -/

namespace Sys2Proof.Machine

/-! ### One register -/

@[simp] theorem State.reg_setReg (s : State) (x r : Reg) (b : Byte) :
    (s.setReg x b).reg r = if r = x then b else s.reg r := by
  simp [State.reg, State.setReg, Vector.getElem_set, Fin.ext_iff, eq_comm]

@[simp] theorem State.reg_setFlag (s : State) (r : Reg) (f : Bool) :
    (s.setFlag f).reg r = if r = flagReg then flagByte f else s.reg r := State.reg_setReg _ _ _ _

/-- The flag wins over the result where the destination is `VF` (`00_scope.md` R9). -/
@[simp] theorem State.reg_setRegFlag (s : State) (x r : Reg) (b : Byte) (f : Bool) :
    (s.setRegFlag x b f).reg r = if r = flagReg then flagByte f else if r = x then b else s.reg r := by
  simp [State.setRegFlag]

theorem State.reg_congr {s t : State} (h : t.v = s.v) (r : Reg) : t.reg r = s.reg r := by simp [State.reg, h]

@[simp] theorem State.reg_retire (s : State) (n : Word) (r : Reg) : (s.retire n).reg r = s.reg r := rfl
@[simp] theorem State.reg_advance (s : State) (r : Reg) : s.advance.reg r = s.reg r := rfl
@[simp] theorem State.reg_skipIf (s : State) (c : Bool) (r : Reg) : (s.skipIf c).reg r = s.reg r := rfl
@[simp] theorem State.reg_await (s : State) (r : Reg) : s.await.reg r = s.reg r := rfl
@[simp] theorem State.reg_report (s : State) (k : DiagKind) (op : Word) (r : Reg) : (s.report k op).reg r = s.reg r := rfl
@[simp] theorem State.reg_setI (s : State) (n : Nat) (r : Reg) : (s.setI n).reg r = s.reg r := rfl
@[simp] theorem State.reg_push (s : State) (w : Word) (h) (r : Reg) : (s.push w h).reg r = s.reg r := rfl
@[simp] theorem State.reg_pop (s : State) (r : Reg) : s.pop.reg r = s.reg r := rfl
@[simp] theorem State.reg_memWriteList (s : State) (a : Nat) (bs : List Byte) (r : Reg) :
    (s.memWriteList a bs).reg r = s.reg r := State.reg_congr (by simp) r

/-- Two register files that read alike are equal. -/
theorem State.v_ext {s t : State} (h : ∀ r, t.reg r = s.reg r) : t.v = s.v :=
  Vector.ext fun k hk => h ⟨k, hk⟩

/-! ### Memory reads through operations that leave memory alone -/

@[simp] theorem State.memRead_retire (s : State) (n : Word) (a : Nat) : (s.retire n).memRead a = s.memRead a := rfl
@[simp] theorem State.memRead_advance (s : State) (a : Nat) : s.advance.memRead a = s.memRead a := rfl
@[simp] theorem State.memRead_skipIf (s : State) (c : Bool) (a : Nat) : (s.skipIf c).memRead a = s.memRead a := rfl
@[simp] theorem State.memRead_await (s : State) (a : Nat) : s.await.memRead a = s.memRead a := rfl
@[simp] theorem State.memRead_report (s : State) (k : DiagKind) (op : Word) (a : Nat) :
    (s.report k op).memRead a = s.memRead a := rfl
@[simp] theorem State.memRead_setReg (s : State) (r : Reg) (b : Byte) (a : Nat) :
    (s.setReg r b).memRead a = s.memRead a := rfl
@[simp] theorem State.memRead_setFlag (s : State) (f : Bool) (a : Nat) : (s.setFlag f).memRead a = s.memRead a := rfl
@[simp] theorem State.memRead_setRegFlag (s : State) (r : Reg) (b : Byte) (f : Bool) (a : Nat) :
    (s.setRegFlag r b f).memRead a = s.memRead a := rfl
@[simp] theorem State.memRead_setI (s : State) (n a : Nat) : (s.setI n).memRead a = s.memRead a := rfl
@[simp] theorem State.memRead_push (s : State) (w : Word) (h) (a : Nat) : (s.push w h).memRead a = s.memRead a := rfl
@[simp] theorem State.memRead_pop (s : State) (a : Nat) : s.pop.memRead a = s.memRead a := rfl

/-! ### A range of registers -/

theorem regsSetBelow_get (v : Vector Byte 16) (f : Nat → Byte) (n : Nat) (h : n ≤ 16) (k : Nat) (hk : k < 16) :
    (regsSetBelow v f n h)[k] = if k < n then f k else v[k] := by
  induction n with
  | zero => simp [regsSetBelow]
  | succ n ih =>
    simp only [regsSetBelow, Vector.getElem_set, ih (Nat.le_of_succ_le h)]
    by_cases hkn : n = k
    · subst hkn; simp
    · rw [if_neg hkn]
      by_cases hlt : k < n
      · rw [if_pos hlt, if_pos (by omega)]
      · rw [if_neg hlt, if_neg (by omega)]

@[simp] theorem State.regsUpTo_length (s : State) (x : Reg) : (s.regsUpTo x).length = x.val + 1 := by
  simp [State.regsUpTo]

theorem State.regsUpTo_get (s : State) (x : Reg) (k : Nat) (hk : k < (s.regsUpTo x).length) :
    (s.regsUpTo x)[k] = s.reg ⟨k, by have := x.isLt; simp at hk; omega⟩ := by
  simp [State.regsUpTo, State.reg]

@[simp] theorem bcdDigits_length (b : Byte) : (bcdDigits b).length = 3 := rfl

/-! ### Flags -/

theorem flagByte_toNat (f : Bool) : (flagByte f).toNat = if f then 1 else 0 := by cases f <;> rfl

theorem lowBitFlag_eq (a : Byte) : lowBitFlag a = decide (a.toNat % 2 = 1) := by
  simp [lowBitFlag, BitVec.getLsbD, Nat.testBit_zero]

theorem highBitFlag_eq (a : Byte) : highBitFlag a = decide (a.toNat / 128 = 1) := by
  have := a.isLt
  rw [highBitFlag, BitVec.getLsbD, Nat.testBit_eq_decide_div_mod_eq]
  congr 1
  apply propext
  omega

/-! ### The address register -/

theorem State.setI_toNat (s : State) (n : Nat) : (s.setI n).i.toNat = n % 4096 := by
  simp only [State.setI_i, BitVec.toNat_ofNat]
  omega

theorem addrOperand_toNat (nnn : BitVec 12) : (addrOperand nnn).toNat = nnn.toNat := by
  have := nnn.isLt
  simp only [addrOperand, BitVec.toNat_setWidth]
  omega

/-! ### The key scan (`46_timer_key.md` R161) -/

theorem State.leastKey_none (s : State) : s.leastKey = none ↔ ¬s.AnyKey := by
  simp [State.leastKey, State.AnyKey]

/-- The scan answers the pressed key below which none is pressed. -/
theorem State.leastKey_some (s : State) (k : Reg) :
    s.leastKey = some k ↔ s.key[k] = true ∧ ∀ j : Reg, j < k → s.key[j] = false := by
  constructor
  · intro h
    obtain ⟨hk, as, bs, hl, ha⟩ := List.find?_eq_some_iff_append.1 h
    refine ⟨by simpa using hk, fun j hj => ?_⟩
    have hmem : j ∈ as := by
      have hj' : j ∈ as ++ k :: bs := hl ▸ List.mem_finRange j
      rcases List.mem_append.1 hj' with h1 | h1
      · exact h1
      · have hs : (as ++ k :: bs).Pairwise (· < ·) := hl ▸ List.pairwise_lt_finRange 16
        have h2 := (List.pairwise_append.1 hs).2.1
        rcases List.mem_cons.1 h1 with rfl | h1
        · exact absurd hj (lt_irrefl _)
        · exact absurd (List.rel_of_pairwise_cons h2 h1) (not_lt.2 hj.le)
    simpa using ha j hmem
  · rintro ⟨hk, hlt⟩
    cases h : s.leastKey with
    | none => exact absurd ⟨k, hk⟩ ((State.leastKey_none s).1 h)
    | some j =>
      obtain ⟨hj, -⟩ := List.find?_eq_some_iff_append.1 h
      have hj : s.key[j] = true := by simpa using hj
      have h1 : ¬j < k := fun hl => by simp [hlt j hl] at hj
      rcases lt_or_eq_of_le (not_lt.1 h1) with h2 | h2
      · exfalso
        obtain ⟨-, as, bs, hl, ha⟩ := List.find?_eq_some_iff_append.1 h
        have hk' : k ∈ as ++ j :: bs := hl ▸ List.mem_finRange k
        have hs : (as ++ j :: bs).Pairwise (· < ·) := hl ▸ List.pairwise_lt_finRange 16
        rcases List.mem_append.1 hk' with h3 | h3
        · have := ha k h3
          simp [hk] at this
        · have h4 := (List.pairwise_append.1 hs).2.1
          rcases List.mem_cons.1 h3 with rfl | h3
          · exact lt_irrefl _ h2
          · exact lt_irrefl _ ((List.rel_of_pairwise_cons h4 h3).trans h2)
      · rw [h2]

end Sys2Proof.Machine
end

