-- ==== Sys2Proof/Laws/Display.lean ====
section
/-! SUPPORT. The blitter in closed form: a draw of at most 32 rows toggles exactly the pixels under the sprite's 1 bits, and
its flag says whether one of them was 1 (`45_display.md` R151). -/

namespace Sys2Proof.Machine

@[simp] theorem Frame.pixel_flip (f : Frame) (x px : Fin 64) (y py : Fin 32) :
    (f.flip x y).pixel px py = ((f.pixel px py) ^^ decide (px = x ∧ py = y)) := by
  unfold Frame.flip Frame.pixel
  by_cases hy : py = y
  · subst hy
    by_cases hx : px = x
    · subst hx; simp
    · have : x.val ≠ px.val := fun h => hx (Fin.ext h.symm)
      simp [hx, this]
  · have : y.val ≠ py.val := fun h => hy (Fin.ext h.symm)
    simp [hy, this]

@[simp] theorem Frame.pixel_clear (x : Fin 64) (y : Fin 32) : Frame.clear.pixel x y = false := by
  simp [Frame.clear, Frame.pixel]

/-- Two framebuffers with the same pixels are equal. -/
theorem Frame.ext_of_pixel {f g : Frame} (h : ∀ x y, f.pixel x y = g.pixel x y) : f = g :=
  Vector.ext fun j hj => Vector.ext fun k hk => h ⟨k, hk⟩ ⟨j, hj⟩

/-- The pixels under the 1 bits of a sprite, in the order the blitter visits them. -/
def spritePoints (x0 y0 : Nat) (row : Nat → Byte) (n : Nat) : List (Fin 64 × Fin 32) :=
  (List.range n).flatMap fun r =>
    ((List.range 8).filter (spriteBit (row r))).map fun col => (pixelColumn x0 col, pixelRow y0 r)

theorem mem_spritePoints {x0 y0 : Nat} {row : Nat → Byte} {n : Nat} {p : Fin 64 × Fin 32} :
    p ∈ spritePoints x0 y0 row n ↔
      ∃ r < n, ∃ col < 8, spriteBit (row r) col = true ∧ pixelColumn x0 col = p.1 ∧ pixelRow y0 r = p.2 := by
  simp only [spritePoints, List.mem_flatMap, List.mem_range, List.mem_map, List.mem_filter, Prod.ext_iff]
  constructor
  · rintro ⟨r, hr, col, ⟨hc, hb⟩, h1, h2⟩
    exact ⟨r, hr, col, hc, hb, h1, h2⟩
  · rintro ⟨r, hr, col, hc, hb, h1, h2⟩
    exact ⟨r, hr, col, ⟨hc, hb⟩, h1, h2⟩

/-- The pixels of one draw are all distinct (`45_display.md` R151). -/
theorem spritePoints_nodup (x0 y0 : Nat) (row : Nat → Byte) {n : Nat} (hn : n ≤ 32) :
    (spritePoints x0 y0 row n).Nodup := by
  rw [spritePoints, List.nodup_flatMap]
  refine ⟨fun r _ => ?_, ?_⟩
  · refine (List.nodup_range.filter _).map_on fun a ha b hb hab => ?_
    have ha := List.mem_range.1 (List.mem_filter.1 ha).1
    have hb := List.mem_range.1 (List.mem_filter.1 hb).1
    have := congrArg (fun q : Fin 64 × Fin 32 => q.1.val) hab
    simp only [pixelColumn, Fin.ofNat] at this
    omega
  · refine (List.nodup_range (n := n)).imp_of_mem fun {a b} ha hb hne => ?_
    have ha := List.mem_range.1 ha
    have hb := List.mem_range.1 hb
    intro p hpa hpb
    obtain ⟨_, _, rfl⟩ := List.mem_map.1 hpa
    obtain ⟨_, _, hq⟩ := List.mem_map.1 hpb
    have := congrArg (fun q : Fin 64 × Fin 32 => q.2.val) hq
    simp only [pixelRow, Fin.ofNat] at this
    omega

theorem drawSprite_eq_plots (x0 y0 : Nat) (row : Nat → Byte) (n : Nat) (c : Frame × Bool) :
    drawSprite x0 y0 row n c = (spritePoints x0 y0 row n).foldl (fun c p => plot p.1 p.2 c) c := by
  simp [drawSprite, drawRow, spritePoints, List.foldl_flatMap, List.foldl_map, List.foldl_filter]

theorem plots_pixel (ps : List (Fin 64 × Fin 32)) (hps : ps.Nodup) (c : Frame × Bool) (x : Fin 64) (y : Fin 32) :
    (ps.foldl (fun c p => plot p.1 p.2 c) c).1.pixel x y = (c.1.pixel x y ^^ decide ((x, y) ∈ ps)) := by
  induction ps generalizing c with
  | nil => simp
  | cons p ps ih =>
    obtain ⟨hp, hps⟩ := List.nodup_cons.1 hps
    rw [List.foldl_cons, ih hps, plot, Frame.pixel_flip]
    by_cases hxy : (x, y) = p
    · subst hxy; simp [hp]
    · have : ¬(x = p.1 ∧ y = p.2) := fun h => hxy (Prod.ext h.1 h.2)
      simp [hxy, this]

theorem plots_hit (ps : List (Fin 64 × Fin 32)) (hps : ps.Nodup) (c : Frame × Bool) :
    (ps.foldl (fun c p => plot p.1 p.2 c) c).2 = (c.2 || ps.any fun p => c.1.pixel p.1 p.2) := by
  induction ps generalizing c with
  | nil => simp
  | cons p ps ih =>
    obtain ⟨hp, hps⟩ := List.nodup_cons.1 hps
    rw [List.foldl_cons, ih hps, List.any_cons, plot, ← Bool.or_assoc]
    congr 1
    rw [Bool.eq_iff_iff]
    simp only [List.any_eq_true]
    refine exists_congr fun q => and_congr_right fun hq => ?_
    have : ¬(q.1 = p.1 ∧ q.2 = p.2) := fun h => hp (Prod.ext h.1 h.2 ▸ hq)
    simp [this]

/-- A draw of at most 32 rows toggles exactly the sprite's pixels. -/
theorem drawSprite_pixel (x0 y0 : Nat) (row : Nat → Byte) {n : Nat} (hn : n ≤ 32) (c : Frame × Bool) (x : Fin 64)
    (y : Fin 32) : (drawSprite x0 y0 row n c).1.pixel x y =
      (c.1.pixel x y ^^ decide ((x, y) ∈ spritePoints x0 y0 row n)) := by
  rw [drawSprite_eq_plots, plots_pixel _ (spritePoints_nodup x0 y0 row hn)]

/-- Its flag is set exactly when one of them was 1. -/
theorem drawSprite_hit (x0 y0 : Nat) (row : Nat → Byte) {n : Nat} (hn : n ≤ 32) (f : Frame) :
    (drawSprite x0 y0 row n (f, false)).2 = (spritePoints x0 y0 row n).any fun p => f.pixel p.1 p.2 := by
  rw [drawSprite_eq_plots, plots_hit _ (spritePoints_nodup x0 y0 row hn), Bool.false_or]

end Sys2Proof.Machine
end

