-- ==== Sys2Proof/Laws/Exec.lean ====
section
/-! SUPPORT. What the meanings with more than one ending answer, and what one step is: one inversion lemma each. -/

namespace Sys2Proof.Machine

/-- `00EE` pops, or reports with nothing to pop (`41_control.md` R100). -/
theorem execRet_cases (s : State) :
    (∃ h : 0 < s.sp.val, execRet s = .next (s.pop.retire (s.top h))) ∨
      (s.sp.val = 0 ∧ execRet s = .next (s.report .stackUnderflow 0x00EE)) := by
  unfold execRet
  split
  · next h => exact .inl ⟨h, rfl⟩
  · next h => exact .inr ⟨by omega, rfl⟩

/-- `2NNN` pushes and jumps, or reports with the stack full (`41_control.md` R102). -/
theorem execCall_cases (nnn : BitVec 12) (s : State) :
    (∃ h : s.sp.val < 16, execCall nnn s = .next ((s.push (s.pc + 2) h).retire (addrOperand nnn))) ∨
      (s.sp.val = 16 ∧ execCall nnn s = .next (s.report .stackOverflow (encodeWord (.call nnn)))) := by
  unfold execCall
  split
  · next h => exact .inl ⟨h, rfl⟩
  · next h => have := s.sp.isLt; exact .inr ⟨by omega, rfl⟩

/-- `FX0A` waits, or takes the least pressed key (`46_timer_key.md` R161). -/
theorem execLdVxK_cases (x : Reg) (s : State) :
    (¬s.AnyKey ∧ execLdVxK x s = .next s.await) ∨
      ∃ k : Reg, (s.key[k] = true ∧ ∀ j : Reg, j < k → s.key[j] = false) ∧
        execLdVxK x s = .next (s.setReg x (BitVec.ofNat 8 k.val)).advance := by
  unfold execLdVxK
  cases h : s.leastKey with
  | none => exact .inl ⟨(State.leastKey_none s).1 h, rfl⟩
  | some k => exact .inr ⟨k, (State.leastKey_some s k).1 h, rfl⟩

/-- A step executes the decoded instruction or reports an unknown opcode (`40_step.md` R90). -/
theorem step_cases (s : State) :
    (∃ i, decodeWord s.fetchWord = .ok i ∧ step s = exec i s) ∨
      (∃ e, decodeWord s.fetchWord = .error e ∧ step s = .next (s.reportUnknown s.fetchWord)) := by
  unfold step
  cases h : decodeWord s.fetchWord with
  | ok i => exact .inl ⟨i, rfl, rfl⟩
  | error e => exact .inr ⟨e, rfl, rfl⟩

/-- `PC` after the default end, as a number (`40_step.md` R92). -/
theorem pc_add_two (p : Word) : (p + 2).toNat = (p.toNat + 2) % 65536 := by simp [BitVec.toNat_add]

/-- `PC` after a taken skip, as a number (`42_skip.md`). -/
theorem pc_add_four (p : Word) : (p + 4).toNat = (p.toNat + 4) % 65536 := by simp [BitVec.toNat_add]

theorem advanced_advance (s : State) : Advanced s s.advance := ⟨pc_add_two s.pc, rfl, rfl⟩

/-- A default end after an operation that kept `PC` is the default end of the step. -/
theorem advanced_of_pc {s u : State} (h : u.pc = s.pc) : Advanced s u.advance :=
  ⟨by rw [State.advance_pc, h, pc_add_two], rfl, rfl⟩

theorem skippedIf_skipIf {s : State} {c : Bool} {p : Prop} (h : c = true ↔ p) : SkippedIf p s (s.skipIf c) := by
  cases c
  · exact ⟨fun hp => absurd (h.2 hp) (by simp), fun _ => ⟨pc_add_two s.pc, rfl, rfl⟩⟩
  · exact ⟨fun _ => ⟨pc_add_four s.pc, rfl, rfl⟩, fun hp => absurd (h.1 rfl) hp⟩

end Sys2Proof.Machine
end

