-- ==== Sys2Proof/Laws/PerInstr.lean ====
section
/-! SUPPORT. The per-instruction family `OpcodeRow`: the word of each instruction matches its own row of the opcode table
(`30_encoding.md` R74). -/

namespace Sys2Proof.Laws

/-! ### A format's word under its row's mask: the operand fields go, the fixed digits stay -/

theorem append_and_append {m n : Nat} (a c : BitVec m) (b d : BitVec n) :
    (a ++ b) &&& (c ++ d) = (a &&& c) ++ (b &&& d) := by
  ext k hk
  simp only [BitVec.getElem_and, BitVec.getElem_append]
  split <;> simp

theorem formatA_and (g : BitVec 4) (nnn : BitVec 12) : formatA g nnn &&& 0xF000 = formatA g 0 := by
  show (g ++ nnn) &&& (0xF#4 ++ 0#12) = g ++ 0#12
  rw [append_and_append]
  congr 1
  · exact BitVec.and_allOnes
  · exact BitVec.and_zero

theorem formatXB_and_group (g : BitVec 4) (x : Reg) (nn : Byte) : formatXB g x nn &&& 0xF000 = formatXB g 0 0 := by
  show (g ++ digit x ++ nn) &&& (0xF#4 ++ 0#4 ++ 0#8) = g ++ 0#4 ++ 0#8
  rw [append_and_append, append_and_append]
  congr 1
  · congr 1
    · exact BitVec.and_allOnes
    · exact BitVec.and_zero
  · exact BitVec.and_zero

theorem formatXF_and (g : BitVec 4) (x : Reg) (f : Byte) : formatXF g x f &&& 0xF0FF = formatXF g 0 f := by
  show (g ++ digit x ++ f) &&& (0xF#4 ++ 0#4 ++ 0xFF#8) = g ++ 0#4 ++ f
  rw [append_and_append, append_and_append]
  congr 1
  · congr 1
    · exact BitVec.and_allOnes
    · exact BitVec.and_zero
  · exact BitVec.and_allOnes

theorem formatXYN_and (g : BitVec 4) (x y : Reg) (n : BitVec 4) : formatXYN g x y n &&& 0xF00F = formatXYN g 0 0 n := by
  show (g ++ digit x ++ digit y ++ n) &&& (0xF#4 ++ 0#4 ++ 0#4 ++ 0xF#4) = g ++ 0#4 ++ 0#4 ++ n
  rw [append_and_append, append_and_append, append_and_append]
  congr 1
  · congr 1
    · congr 1
      · exact BitVec.and_allOnes
      · exact BitVec.and_zero
    · exact BitVec.and_zero
  · exact BitVec.and_allOnes

theorem formatXYN_and_group (g : BitVec 4) (x y : Reg) (n : BitVec 4) :
    formatXYN g x y n &&& 0xF000 = formatXYN g 0 0 0 := by
  show (g ++ digit x ++ digit y ++ n) &&& (0xF#4 ++ 0#4 ++ 0#4 ++ 0#4) = g ++ 0#4 ++ 0#4 ++ 0#4
  rw [append_and_append, append_and_append, append_and_append]
  congr 1
  · congr 1
    · congr 1
      · exact BitVec.and_allOnes
      · exact BitVec.and_zero
    · exact BitVec.and_zero
  · exact BitVec.and_zero

/-- The instruction's word matches the row of the table that bears its mnemonic. -/
def OpcodeRow.Statement (i : Instr) : Prop :=
  ∃ row ∈ opcodeTable, row.mnemonic = i.mnemonic ∧ row.Matches (encodeWord i)

theorem OpcodeRow.cls : OpcodeRow.Statement .cls :=
  ⟨⟨"CLS", 0xFFFF, 0x00E0⟩, by simp [opcodeTable], rfl, rfl⟩

theorem OpcodeRow.ret : OpcodeRow.Statement .ret :=
  ⟨⟨"RET", 0xFFFF, 0x00EE⟩, by simp [opcodeTable], rfl, rfl⟩

theorem OpcodeRow.jp (nnn : BitVec 12) : OpcodeRow.Statement (.jp nnn) :=
  ⟨⟨"JP", 0xF000, 0x1000⟩, by simp [opcodeTable], rfl, formatA_and _ _⟩

theorem OpcodeRow.call (nnn : BitVec 12) : OpcodeRow.Statement (.call nnn) :=
  ⟨⟨"CALL", 0xF000, 0x2000⟩, by simp [opcodeTable], rfl, formatA_and _ _⟩

theorem OpcodeRow.seImm (x : Reg) (nn : Byte) : OpcodeRow.Statement (.seImm x nn) :=
  ⟨⟨"SE.I", 0xF000, 0x3000⟩, by simp [opcodeTable], rfl, formatXB_and_group _ _ _⟩

theorem OpcodeRow.sneImm (x : Reg) (nn : Byte) : OpcodeRow.Statement (.sneImm x nn) :=
  ⟨⟨"SNE.I", 0xF000, 0x4000⟩, by simp [opcodeTable], rfl, formatXB_and_group _ _ _⟩

theorem OpcodeRow.seReg (x y : Reg) : OpcodeRow.Statement (.seReg x y) :=
  ⟨⟨"SE.R", 0xF00F, 0x5000⟩, by simp [opcodeTable], rfl, formatXYN_and _ _ _ _⟩

theorem OpcodeRow.ldImm (x : Reg) (nn : Byte) : OpcodeRow.Statement (.ldImm x nn) :=
  ⟨⟨"LD.I", 0xF000, 0x6000⟩, by simp [opcodeTable], rfl, formatXB_and_group _ _ _⟩

theorem OpcodeRow.addImm (x : Reg) (nn : Byte) : OpcodeRow.Statement (.addImm x nn) :=
  ⟨⟨"ADD.I", 0xF000, 0x7000⟩, by simp [opcodeTable], rfl, formatXB_and_group _ _ _⟩

theorem OpcodeRow.ldReg (x y : Reg) : OpcodeRow.Statement (.ldReg x y) :=
  ⟨⟨"LD.R", 0xF00F, 0x8000⟩, by simp [opcodeTable], rfl, formatXYN_and _ _ _ _⟩

theorem OpcodeRow.orReg (x y : Reg) : OpcodeRow.Statement (.orReg x y) :=
  ⟨⟨"OR", 0xF00F, 0x8001⟩, by simp [opcodeTable], rfl, formatXYN_and _ _ _ _⟩

theorem OpcodeRow.andReg (x y : Reg) : OpcodeRow.Statement (.andReg x y) :=
  ⟨⟨"AND", 0xF00F, 0x8002⟩, by simp [opcodeTable], rfl, formatXYN_and _ _ _ _⟩

theorem OpcodeRow.xorReg (x y : Reg) : OpcodeRow.Statement (.xorReg x y) :=
  ⟨⟨"XOR", 0xF00F, 0x8003⟩, by simp [opcodeTable], rfl, formatXYN_and _ _ _ _⟩

theorem OpcodeRow.addReg (x y : Reg) : OpcodeRow.Statement (.addReg x y) :=
  ⟨⟨"ADD.R", 0xF00F, 0x8004⟩, by simp [opcodeTable], rfl, formatXYN_and _ _ _ _⟩

theorem OpcodeRow.sub (x y : Reg) : OpcodeRow.Statement (.sub x y) :=
  ⟨⟨"SUB", 0xF00F, 0x8005⟩, by simp [opcodeTable], rfl, formatXYN_and _ _ _ _⟩

theorem OpcodeRow.shr (x y : Reg) : OpcodeRow.Statement (.shr x y) :=
  ⟨⟨"SHR", 0xF00F, 0x8006⟩, by simp [opcodeTable], rfl, formatXYN_and _ _ _ _⟩

theorem OpcodeRow.subn (x y : Reg) : OpcodeRow.Statement (.subn x y) :=
  ⟨⟨"SUBN", 0xF00F, 0x8007⟩, by simp [opcodeTable], rfl, formatXYN_and _ _ _ _⟩

theorem OpcodeRow.shl (x y : Reg) : OpcodeRow.Statement (.shl x y) :=
  ⟨⟨"SHL", 0xF00F, 0x800E⟩, by simp [opcodeTable], rfl, formatXYN_and _ _ _ _⟩

theorem OpcodeRow.sneReg (x y : Reg) : OpcodeRow.Statement (.sneReg x y) :=
  ⟨⟨"SNE.R", 0xF00F, 0x9000⟩, by simp [opcodeTable], rfl, formatXYN_and _ _ _ _⟩

theorem OpcodeRow.ldIdx (nnn : BitVec 12) : OpcodeRow.Statement (.ldIdx nnn) :=
  ⟨⟨"LD.IDX", 0xF000, 0xA000⟩, by simp [opcodeTable], rfl, formatA_and _ _⟩

theorem OpcodeRow.jpV0 (nnn : BitVec 12) : OpcodeRow.Statement (.jpV0 nnn) :=
  ⟨⟨"JP.V0", 0xF000, 0xB000⟩, by simp [opcodeTable], rfl, formatA_and _ _⟩

theorem OpcodeRow.rnd (x : Reg) (nn : Byte) : OpcodeRow.Statement (.rnd x nn) :=
  ⟨⟨"RND", 0xF000, 0xC000⟩, by simp [opcodeTable], rfl, formatXB_and_group _ _ _⟩

theorem OpcodeRow.drw (x y : Reg) (n : Nat) : OpcodeRow.Statement (.drw x y n) :=
  ⟨⟨"DRW", 0xF000, 0xD000⟩, by simp [opcodeTable], rfl, formatXYN_and_group _ _ _ _⟩

theorem OpcodeRow.skp (x : Reg) : OpcodeRow.Statement (.skp x) :=
  ⟨⟨"SKP", 0xF0FF, 0xE09E⟩, by simp [opcodeTable], rfl, formatXF_and _ _ _⟩

theorem OpcodeRow.sknp (x : Reg) : OpcodeRow.Statement (.sknp x) :=
  ⟨⟨"SKNP", 0xF0FF, 0xE0A1⟩, by simp [opcodeTable], rfl, formatXF_and _ _ _⟩

theorem OpcodeRow.ldVxDt (x : Reg) : OpcodeRow.Statement (.ldVxDt x) :=
  ⟨⟨"LD.VX.DT", 0xF0FF, 0xF007⟩, by simp [opcodeTable], rfl, formatXF_and _ _ _⟩

theorem OpcodeRow.ldVxK (x : Reg) : OpcodeRow.Statement (.ldVxK x) :=
  ⟨⟨"LD.VX.K", 0xF0FF, 0xF00A⟩, by simp [opcodeTable], rfl, formatXF_and _ _ _⟩

theorem OpcodeRow.ldDtVx (x : Reg) : OpcodeRow.Statement (.ldDtVx x) :=
  ⟨⟨"LD.DT.VX", 0xF0FF, 0xF015⟩, by simp [opcodeTable], rfl, formatXF_and _ _ _⟩

theorem OpcodeRow.ldStVx (x : Reg) : OpcodeRow.Statement (.ldStVx x) :=
  ⟨⟨"LD.ST.VX", 0xF0FF, 0xF018⟩, by simp [opcodeTable], rfl, formatXF_and _ _ _⟩

theorem OpcodeRow.addIdx (x : Reg) : OpcodeRow.Statement (.addIdx x) :=
  ⟨⟨"ADD.IDX", 0xF0FF, 0xF01E⟩, by simp [opcodeTable], rfl, formatXF_and _ _ _⟩

theorem OpcodeRow.ldF (x : Reg) : OpcodeRow.Statement (.ldF x) :=
  ⟨⟨"LD.F", 0xF0FF, 0xF029⟩, by simp [opcodeTable], rfl, formatXF_and _ _ _⟩

theorem OpcodeRow.ldB (x : Reg) : OpcodeRow.Statement (.ldB x) :=
  ⟨⟨"LD.B", 0xF0FF, 0xF033⟩, by simp [opcodeTable], rfl, formatXF_and _ _ _⟩

theorem OpcodeRow.stRegs (x : Reg) : OpcodeRow.Statement (.stRegs x) :=
  ⟨⟨"ST.REGS", 0xF0FF, 0xF055⟩, by simp [opcodeTable], rfl, formatXF_and _ _ _⟩

theorem OpcodeRow.ldRegs (x : Reg) : OpcodeRow.Statement (.ldRegs x) :=
  ⟨⟨"LD.REGS", 0xF0FF, 0xF065⟩, by simp [opcodeTable], rfl, formatXF_and _ _ _⟩

end Sys2Proof.Laws
end

