-- ==== Sys2Proof/Laws/Spells.lean ====
section
/-! SUPPORT. Each spelling of `30_encoding.md` R78 decodes to its instruction: one lemma a format, then one an instruction. -/

namespace Sys2Proof.Machine

theorem ofNat16_toNat {w : Nat} (h : w < 65536) : (BitVec.ofNat 16 w).toNat = w := by
  simp only [BitVec.toNat_ofNat]; omega

theorem fieldG_ofNat {w g : Nat} (h : w < 65536) (hg : w / 4096 = g) : (fieldG (BitVec.ofNat 16 w)).toNat = g := by
  rw [fieldG_toNat, ofNat16_toNat h, hg]

theorem fieldX_ofNat {w : Nat} {x : Reg} (h : w < 65536) (hx : w / 256 % 16 = x.val) : fieldX (BitVec.ofNat 16 w) = x := by
  apply Fin.ext; rw [fieldX_val, ofNat16_toNat h, hx]

theorem fieldY_ofNat {w : Nat} {y : Reg} (h : w < 65536) (hy : w / 16 % 16 = y.val) : fieldY (BitVec.ofNat 16 w) = y := by
  apply Fin.ext; rw [fieldY_val, ofNat16_toNat h, hy]

theorem fieldN_ofNat {w n : Nat} (h : w < 65536) (hn : w % 16 = n) : (fieldN (BitVec.ofNat 16 w)).toNat = n := by
  rw [fieldN_toNat, ofNat16_toNat h, hn]

theorem fieldNN_ofNat {w n : Nat} (h : w < 65536) (hn : w % 256 = n) : (fieldNN (BitVec.ofNat 16 w)).toNat = n := by
  rw [fieldNN_toNat, ofNat16_toNat h, hn]

theorem fieldNNN_ofNat {w n : Nat} (h : w < 65536) (hn : w % 4096 = n) : (fieldNNN (BitVec.ofNat 16 w)).toNat = n := by
  rw [fieldNNN_toNat, ofNat16_toNat h, hn]

theorem fieldN_eq_zero {op : Word} (h : (fieldN op).toNat = 0) : fieldN op = 0 := BitVec.eq_of_toNat_eq h

/-- Format A: a group whose decoding reads `NNN` alone. -/
theorem spells_A (g : Nat) (f : BitVec 12 → Instr) (hg : g < 16) (nnn : BitVec 12)
    (hd : ∀ op, (fieldG op).toNat = g → decodeWord op = .ok (f (fieldNNN op))) : Spells (g * 4096 + nnn.toNat) (f nnn) := by
  have hn := nnn.isLt
  have h : g * 4096 + nnn.toNat < 65536 := by omega
  refine ⟨h, ?_⟩
  rw [hd _ (fieldG_ofNat h (by omega)), BitVec.eq_of_toNat_eq (fieldNNN_ofNat h (n := nnn.toNat) (by omega))]

/-- Format XB: a group whose decoding reads `X` and `NN`. -/
theorem spells_XB (g : Nat) (f : Reg → Byte → Instr) (hg : g < 16) (x : Reg) (nn : Byte)
    (hd : ∀ op, (fieldG op).toNat = g → decodeWord op = .ok (f (fieldX op) (fieldNN op))) :
    Spells (g * 4096 + x.val * 256 + nn.toNat) (f x nn) := by
  have hx := x.isLt
  have hn := nn.isLt
  have h : g * 4096 + x.val * 256 + nn.toNat < 65536 := by omega
  refine ⟨h, ?_⟩
  rw [hd _ (fieldG_ofNat h (by omega)), fieldX_ofNat h (x := x) (by omega),
    BitVec.eq_of_toNat_eq (fieldNN_ofNat h (n := nn.toNat) (by omega))]

/-- Format XY: a group and a low digit whose decoding reads `X` and `Y`. -/
theorem spells_XY (g n : Nat) (f : Reg → Reg → Instr) (hg : g < 16) (hn : n < 16) (x y : Reg)
    (hd : ∀ op, (fieldG op).toNat = g → (fieldN op).toNat = n → decodeWord op = .ok (f (fieldX op) (fieldY op))) :
    Spells (g * 4096 + n + x.val * 256 + y.val * 16) (f x y) := by
  have hx := x.isLt
  have hy := y.isLt
  have h : g * 4096 + n + x.val * 256 + y.val * 16 < 65536 := by omega
  refine ⟨h, ?_⟩
  rw [hd _ (fieldG_ofNat h (by omega)) (fieldN_ofNat h (by omega)), fieldX_ofNat h (x := x) (by omega),
    fieldY_ofNat h (y := y) (by omega)]

/-- Format XF: a group and a low byte whose decoding reads `X`. -/
theorem spells_XF (g n : Nat) (f : Reg → Instr) (hg : g < 16) (hn : n < 256) (x : Reg)
    (hd : ∀ op, (fieldG op).toNat = g → (fieldNN op).toNat = n → decodeWord op = .ok (f (fieldX op))) :
    Spells (g * 4096 + n + x.val * 256) (f x) := by
  have hx := x.isLt
  have h : g * 4096 + n + x.val * 256 < 65536 := by omega
  refine ⟨h, ?_⟩
  rw [hd _ (fieldG_ofNat h (by omega)) (fieldNN_ofNat h (by omega)), fieldX_ofNat h (x := x) (by omega)]

theorem spells_cls : Spells 0x00E0 .cls := ⟨by omega, by decide⟩

theorem spells_ret : Spells 0x00EE .ret := ⟨by omega, by decide⟩

/-- Format XYN. -/
theorem spells_drw (x y : Reg) (n : Nat) (hn : n < 16) :
    Spells (0xD000 + x.val * 256 + y.val * 16 + n) (.drw x y n) := by
  have hx := x.isLt
  have hy := y.isLt
  have h : 0xD000 + x.val * 256 + y.val * 16 + n < 65536 := by omega
  refine ⟨h, ?_⟩
  simp only [decodeWord, fieldG_ofNat h (g := 0xD) (by omega), fieldN_ofNat h (n := n) (by omega),
    fieldX_ofNat h (x := x) (by omega), fieldY_ofNat h (y := y) (by omega)]

theorem spells_jp (nnn : BitVec 12) : Spells (0x1000 + nnn.toNat) (.jp nnn) :=
  spells_A 0x1 .jp (by decide) nnn fun op h => by simp only [decodeWord, h]

theorem spells_call (nnn : BitVec 12) : Spells (0x2000 + nnn.toNat) (.call nnn) :=
  spells_A 0x2 .call (by decide) nnn fun op h => by simp only [decodeWord, h]

theorem spells_ldIdx (nnn : BitVec 12) : Spells (0xA000 + nnn.toNat) (.ldIdx nnn) :=
  spells_A 0xA .ldIdx (by decide) nnn fun op h => by simp only [decodeWord, h]

theorem spells_jpV0 (nnn : BitVec 12) : Spells (0xB000 + nnn.toNat) (.jpV0 nnn) :=
  spells_A 0xB .jpV0 (by decide) nnn fun op h => by simp only [decodeWord, h]

theorem spells_seImm (x : Reg) (nn : Byte) : Spells (0x3000 + x.val * 256 + nn.toNat) (.seImm x nn) :=
  spells_XB 0x3 .seImm (by decide) x nn fun op h => by simp only [decodeWord, h]

theorem spells_sneImm (x : Reg) (nn : Byte) : Spells (0x4000 + x.val * 256 + nn.toNat) (.sneImm x nn) :=
  spells_XB 0x4 .sneImm (by decide) x nn fun op h => by simp only [decodeWord, h]

theorem spells_ldImm (x : Reg) (nn : Byte) : Spells (0x6000 + x.val * 256 + nn.toNat) (.ldImm x nn) :=
  spells_XB 0x6 .ldImm (by decide) x nn fun op h => by simp only [decodeWord, h]

theorem spells_addImm (x : Reg) (nn : Byte) : Spells (0x7000 + x.val * 256 + nn.toNat) (.addImm x nn) :=
  spells_XB 0x7 .addImm (by decide) x nn fun op h => by simp only [decodeWord, h]

theorem spells_rnd (x : Reg) (nn : Byte) : Spells (0xC000 + x.val * 256 + nn.toNat) (.rnd x nn) :=
  spells_XB 0xC .rnd (by decide) x nn fun op h => by simp only [decodeWord, h]

theorem spells_seReg (x y : Reg) : Spells (0x5000 + x.val * 256 + y.val * 16) (.seReg x y) :=
  spells_XY 0x5 0x0 .seReg (by decide) (by decide) x y fun op h hn => by simp only [decodeWord, h, fieldN_eq_zero hn, if_true]

theorem spells_sneReg (x y : Reg) : Spells (0x9000 + x.val * 256 + y.val * 16) (.sneReg x y) :=
  spells_XY 0x9 0x0 .sneReg (by decide) (by decide) x y fun op h hn => by simp only [decodeWord, h, fieldN_eq_zero hn, if_true]

theorem spells_ldReg (x y : Reg) : Spells (0x8000 + x.val * 256 + y.val * 16) (.ldReg x y) :=
  spells_XY 0x8 0x0 .ldReg (by decide) (by decide) x y fun op h hn => by simp only [decodeWord, h, decodeGroup8, hn]

theorem spells_orReg (x y : Reg) : Spells (0x8001 + x.val * 256 + y.val * 16) (.orReg x y) :=
  spells_XY 0x8 0x1 .orReg (by decide) (by decide) x y fun op h hn => by simp only [decodeWord, h, decodeGroup8, hn]

theorem spells_andReg (x y : Reg) : Spells (0x8002 + x.val * 256 + y.val * 16) (.andReg x y) :=
  spells_XY 0x8 0x2 .andReg (by decide) (by decide) x y fun op h hn => by simp only [decodeWord, h, decodeGroup8, hn]

theorem spells_xorReg (x y : Reg) : Spells (0x8003 + x.val * 256 + y.val * 16) (.xorReg x y) :=
  spells_XY 0x8 0x3 .xorReg (by decide) (by decide) x y fun op h hn => by simp only [decodeWord, h, decodeGroup8, hn]

theorem spells_addReg (x y : Reg) : Spells (0x8004 + x.val * 256 + y.val * 16) (.addReg x y) :=
  spells_XY 0x8 0x4 .addReg (by decide) (by decide) x y fun op h hn => by simp only [decodeWord, h, decodeGroup8, hn]

theorem spells_sub (x y : Reg) : Spells (0x8005 + x.val * 256 + y.val * 16) (.sub x y) :=
  spells_XY 0x8 0x5 .sub (by decide) (by decide) x y fun op h hn => by simp only [decodeWord, h, decodeGroup8, hn]

theorem spells_shr (x y : Reg) : Spells (0x8006 + x.val * 256 + y.val * 16) (.shr x y) :=
  spells_XY 0x8 0x6 .shr (by decide) (by decide) x y fun op h hn => by simp only [decodeWord, h, decodeGroup8, hn]

theorem spells_subn (x y : Reg) : Spells (0x8007 + x.val * 256 + y.val * 16) (.subn x y) :=
  spells_XY 0x8 0x7 .subn (by decide) (by decide) x y fun op h hn => by simp only [decodeWord, h, decodeGroup8, hn]

theorem spells_shl (x y : Reg) : Spells (0x800E + x.val * 256 + y.val * 16) (.shl x y) :=
  spells_XY 0x8 0xE .shl (by decide) (by decide) x y fun op h hn => by simp only [decodeWord, h, decodeGroup8, hn]

theorem spells_skp (x : Reg) : Spells (0xE09E + x.val * 256) (.skp x) :=
  spells_XF 0xE 0x9E .skp (by decide) (by decide) x fun op h hn => by simp only [decodeWord, h, decodeGroupE, hn]

theorem spells_sknp (x : Reg) : Spells (0xE0A1 + x.val * 256) (.sknp x) :=
  spells_XF 0xE 0xA1 .sknp (by decide) (by decide) x fun op h hn => by simp only [decodeWord, h, decodeGroupE, hn]

theorem spells_ldVxDt (x : Reg) : Spells (0xF007 + x.val * 256) (.ldVxDt x) :=
  spells_XF 0xF 0x07 .ldVxDt (by decide) (by decide) x fun op h hn => by simp only [decodeWord, h, decodeGroupF, hn]

theorem spells_ldVxK (x : Reg) : Spells (0xF00A + x.val * 256) (.ldVxK x) :=
  spells_XF 0xF 0x0A .ldVxK (by decide) (by decide) x fun op h hn => by simp only [decodeWord, h, decodeGroupF, hn]

theorem spells_ldDtVx (x : Reg) : Spells (0xF015 + x.val * 256) (.ldDtVx x) :=
  spells_XF 0xF 0x15 .ldDtVx (by decide) (by decide) x fun op h hn => by simp only [decodeWord, h, decodeGroupF, hn]

theorem spells_ldStVx (x : Reg) : Spells (0xF018 + x.val * 256) (.ldStVx x) :=
  spells_XF 0xF 0x18 .ldStVx (by decide) (by decide) x fun op h hn => by simp only [decodeWord, h, decodeGroupF, hn]

theorem spells_addIdx (x : Reg) : Spells (0xF01E + x.val * 256) (.addIdx x) :=
  spells_XF 0xF 0x1E .addIdx (by decide) (by decide) x fun op h hn => by simp only [decodeWord, h, decodeGroupF, hn]

theorem spells_ldF (x : Reg) : Spells (0xF029 + x.val * 256) (.ldF x) :=
  spells_XF 0xF 0x29 .ldF (by decide) (by decide) x fun op h hn => by simp only [decodeWord, h, decodeGroupF, hn]

theorem spells_ldB (x : Reg) : Spells (0xF033 + x.val * 256) (.ldB x) :=
  spells_XF 0xF 0x33 .ldB (by decide) (by decide) x fun op h hn => by simp only [decodeWord, h, decodeGroupF, hn]

theorem spells_stRegs (x : Reg) : Spells (0xF055 + x.val * 256) (.stRegs x) :=
  spells_XF 0xF 0x55 .stRegs (by decide) (by decide) x fun op h hn => by simp only [decodeWord, h, decodeGroupF, hn]

theorem spells_ldRegs (x : Reg) : Spells (0xF065 + x.val * 256) (.ldRegs x) :=
  spells_XF 0xF 0x65 .ldRegs (by decide) (by decide) x fun op h hn => by simp only [decodeWord, h, decodeGroupF, hn]

end Sys2Proof.Machine
end

