-- ==== Sys2Proof/Tests/Slice0.lean ====
section
/-! SUPPORT. The model's own tests: the well-formedness smoke, each constructor's decoding from a word written out from
`30_encoding.md`, single steps whose expected results are vectors of `95_test_vectors.md` (named T<n>, E<n>, P<n>), and for each
statement with hypotheses a state and operands that meet them. -/

namespace Sys2Proof.Tests

open Sys2Proof Sys2Proof.Machine

/-! ### Well-formedness -/

theorem test_wellFormed_rowCount_16_refused : (Instr.drw 0 0 16).wellFormed = false := by decide
theorem test_wellFormed_rowCount_15_accepted : (Instr.drw 0 0 15).wellFormed = true := by decide

/-! ### Decoding: words from R74, R78 -/

theorem test_decode_cls : decode [0x00, 0xE0] = .ok (.cls, []) := by decide
theorem test_decode_ret : decode [0x00, 0xEE] = .ok (.ret, []) := by decide
theorem test_decode_jp : decode [0x1A, 0xBC] = .ok (.jp 0xABC, []) := by decide
theorem test_decode_call : decode [0x2A, 0xBC] = .ok (.call 0xABC, []) := by decide
theorem test_decode_seImm : decode [0x3A, 0x42] = .ok (.seImm 0xA 0x42, []) := by decide
theorem test_decode_sneImm : decode [0x4A, 0x42] = .ok (.sneImm 0xA 0x42, []) := by decide
theorem test_decode_seReg : decode [0x5A, 0xB0] = .ok (.seReg 0xA 0xB, []) := by decide
theorem test_decode_ldImm : decode [0x6A, 0x2C] = .ok (.ldImm 0xA 0x2C, []) := by decide
theorem test_decode_addImm : decode [0x71, 0x02] = .ok (.addImm 1 2, []) := by decide
theorem test_decode_ldReg : decode [0x8A, 0xB0] = .ok (.ldReg 0xA 0xB, []) := by decide
theorem test_decode_orReg : decode [0x8A, 0xB1] = .ok (.orReg 0xA 0xB, []) := by decide
theorem test_decode_andReg : decode [0x8A, 0xB2] = .ok (.andReg 0xA 0xB, []) := by decide
theorem test_decode_xorReg : decode [0x8A, 0xB3] = .ok (.xorReg 0xA 0xB, []) := by decide
theorem test_decode_addReg : decode [0x8A, 0xB4] = .ok (.addReg 0xA 0xB, []) := by decide
theorem test_decode_sub : decode [0x8A, 0xB5] = .ok (.sub 0xA 0xB, []) := by decide
theorem test_decode_shr : decode [0x8A, 0xB6] = .ok (.shr 0xA 0xB, []) := by decide
theorem test_decode_subn : decode [0x8A, 0xB7] = .ok (.subn 0xA 0xB, []) := by decide
theorem test_decode_shl : decode [0x8A, 0xBE] = .ok (.shl 0xA 0xB, []) := by decide
theorem test_decode_sneReg : decode [0x9A, 0xB0] = .ok (.sneReg 0xA 0xB, []) := by decide
theorem test_decode_ldIdx : decode [0xA2, 0xF0] = .ok (.ldIdx 0x2F0, []) := by decide
theorem test_decode_jpV0 : decode [0xB3, 0x01] = .ok (.jpV0 0x301, []) := by decide
theorem test_decode_rnd : decode [0xC3, 0x0F] = .ok (.rnd 3 0x0F, []) := by decide
theorem test_decode_drw : decode [0xD1, 0x2F] = .ok (.drw 1 2 15, []) := by decide
theorem test_decode_skp : decode [0xE1, 0x9E] = .ok (.skp 1, []) := by decide
theorem test_decode_sknp : decode [0xE1, 0xA1] = .ok (.sknp 1, []) := by decide
theorem test_decode_ldVxDt : decode [0xF5, 0x07] = .ok (.ldVxDt 5, []) := by decide
theorem test_decode_ldVxK : decode [0xF3, 0x0A] = .ok (.ldVxK 3, []) := by decide
theorem test_decode_ldDtVx : decode [0xF5, 0x15] = .ok (.ldDtVx 5, []) := by decide
theorem test_decode_ldStVx : decode [0xF5, 0x18] = .ok (.ldStVx 5, []) := by decide
theorem test_decode_addIdx : decode [0xF2, 0x1E] = .ok (.addIdx 2, []) := by decide
theorem test_decode_ldF : decode [0xF0, 0x29] = .ok (.ldF 0, []) := by decide
theorem test_decode_ldB : decode [0xF0, 0x33] = .ok (.ldB 0, []) := by decide
theorem test_decode_stRegs : decode [0xF2, 0x55, 0x99] = .ok (.stRegs 2, [0x99]) := by decide
theorem test_decode_ldRegs : decode [0xF2, 0x65] = .ok (.ldRegs 2, []) := by decide

/-- T90a to T90p: the words around the instructions are unknown. -/
theorem test_decode_unknown_T90 : ∀ w ∈ [0x0000, 0x0123, 0x00E1, 0x00EF, 0x00FE, 0x5121, 0x5AB1, 0x9AB1, 0x8AB8, 0x800F,
    0xE19F, 0xE000, 0xF000, 0xF067, 0xF1FF, 0xFFFF], decodeWord (BitVec.ofNat 16 w) = .error (.unknownOpcode (BitVec.ofNat 16 w)) := by
  decide

theorem test_decode_one_byte_is_truncated : decode [0x60] = .error .truncated := by decide

theorem test_table_word_high_byte_first : decodeTableWord 16 0x8AB4 = some (.addReg 0xA 0xB) := by decide

/-! ### One step -/

/-- The reset state with registers, `I`, and bytes at 0x300 as a vector's "before" column gives them. -/
def before (v : List (Reg × Byte)) (i : Word := 0) (bytes : List Byte := []) : State :=
  let s := v.foldl (fun (s : State) p => s.setReg p.1 p.2) State.reset
  { s with i := i }.memWriteList 0x300 bytes

/-- The state after one step on the word `w` placed at `PC`. -/
def after (w : Nat) (s : State) : State :=
  match step (s.withFetchWord 16 w) with
  | .next t => t
  | .fault _ => s
  | .refused _ => s

/-- The values of some registers, then `PC`. -/
def look (s : State) (rs : List Reg) : List Nat := rs.map (fun r => (s.reg r).toNat) ++ [s.pc.toNat]

/-- The bytes at some addresses, then `I`. -/
def lookMem (s : State) (as : List Nat) : List Nat := as.map (fun a => (s.memRead a).toNat) ++ [s.i.toNat]

theorem test_fetch_wraps_T2 : look (after 0x6134 { State.reset with pc := 0x0FFF }) [1] = [0x34, 0x1001] := by decide
theorem test_pc_wraps_T4 : look (after 0x6012 { State.reset with pc := 0xFFFE }) [0] = [0x12, 0x0000] := by decide
theorem test_unknown_T7 : (after 0x0000 State.reset).diag = some ⟨.unknownOpcode, 0x0000, 0x200⟩ := by decide

theorem test_jp_T10 : look (after 0x1ABC State.reset) [] = [0x0ABC] := by decide
theorem test_call_T13 : (look (after 0x2300 State.reset) [], (after 0x2300 State.reset).stack[0], (after 0x2300 State.reset).sp)
    = ([0x300], 0x0202, 1) := by decide
theorem test_call_full_T15 : let t := after 0x2ABC { State.reset with pc := 0x400, sp := 16 }
    (t.diag, t.sp, t.pc) = (some ⟨.stackOverflow, 0x2ABC, 0x0400⟩, 16, 0x0402) := by decide
theorem test_ret_T18 : let t := after 0x00EE { State.reset with pc := 0x300, sp := 16, stack := State.reset.stack.set 15 0xABCD }
    (t.sp, t.pc, t.stack[15]) = (15, 0xABCD, 0xABCD) := by decide
theorem test_ret_empty_T19 : let t := after 0x00EE { State.reset with pc := 0x300, stack := State.reset.stack.set 0 0x0555 }
    (t.diag, t.sp, t.pc) = (some ⟨.stackUnderflow, 0x00EE, 0x0300⟩, 0, 0x0302) := by decide
theorem test_jpV0_T22 : look (after 0xBFFF (before [(0, 0xFF)])) [] = [0x10FE] := by decide

theorem test_seImm_T25 : look (after 0x3A42 (before [(0xA, 0x42)])) [] = [0x204] := by decide
theorem test_sneImm_T26 : look (after 0x4A42 (before [(0xA, 0x42)])) [] = [0x202] := by decide
theorem test_seReg_T27 : look (after 0x5AB0 (before [(0xA, 7), (0xB, 8)])) [] = [0x202] := by decide
theorem test_sneReg_T28 : look (after 0x9AB0 (before [(0xA, 7), (0xB, 8)])) [] = [0x204] := by decide
theorem test_skp_T29c : look (after 0xE19E ((before [(1, 0x15)]).keyWrite 5 true)) [] = [0x204] := by decide
theorem test_sknp_T30c : look (after 0xE1A1 ((before [(1, 0xF5)]).keyWrite 5 true)) [] = [0x202] := by decide

theorem test_ldImm_E2 : look (after 0x6F12 State.reset) [0xF] = [0x12, 0x202] := by decide
theorem test_addImm_T32a : look (after 0x7A01 (before [(0xA, 0xFF), (0xF, 7)])) [0xA, 0xF] = [0x00, 7, 0x202] := by decide
theorem test_ldReg_T36 : look (after 0x8AB0 (before [(0xA, 0x01), (0xB, 0xC3), (0xF, 5)])) [0xA, 0xB, 0xF] = [0xC3, 0xC3, 5, 0x202] := by decide
theorem test_orReg_T40 : look (after 0x8AB1 (before [(0xA, 0xF0), (0xB, 0x3C), (0xF, 5)])) [0xA, 0xF] = [0xFC, 5, 0x202] := by decide
theorem test_andReg_T41 : look (after 0x8AB2 (before [(0xA, 0xF0), (0xB, 0x3C), (0xF, 5)])) [0xA, 0xF] = [0x30, 5, 0x202] := by decide
theorem test_xorReg_T42 : look (after 0x8AB3 (before [(0xA, 0xF0), (0xB, 0x3C), (0xF, 5)])) [0xA, 0xF] = [0xCC, 5, 0x202] := by decide
theorem test_addReg_T33 : look (after 0x8AB4 (before [(0xA, 0xFE), (0xB, 0xFE)])) [0xA, 0xF] = [0xFC, 1, 0x202] := by decide
theorem test_addReg_T38a : look (after 0x8F14 (before [(0xF, 0x83), (1, 0x90)])) [0xF, 1] = [1, 0x90, 0x202] := by decide
theorem test_sub_T34 : look (after 0x8AB5 (before [(0xA, 0x01), (0xB, 0xFE)])) [0xA, 0xF] = [0x03, 0, 0x202] := by decide
theorem test_sub_T38g : look (after 0x81F5 (before [(0xF, 0x83), (1, 0x90)])) [1, 0xF] = [0x0D, 1, 0x202] := by decide
theorem test_shr_T43a : look (after 0x8AB6 (before [(0xA, 0x05), (0xB, 0xFE)])) [0xA, 0xB, 0xF] = [0x02, 0xFE, 1, 0x202] := by decide
theorem test_shr_T38c : look (after 0x8F16 (before [(0xF, 0x83)])) [0xF] = [1, 0x202] := by decide
theorem test_subn_T35 : look (after 0x8AB7 (before [(0xA, 0xFE), (0xB, 0x01)])) [0xA, 0xF] = [0x03, 0, 0x202] := by decide
theorem test_shl_T43b : look (after 0x8ABE (before [(0xA, 0x85), (0xB, 0x01)])) [0xA, 0xB, 0xF] = [0x0A, 0x01, 1, 0x202] := by decide
theorem test_shl_T38k : look (after 0x8FFE (before [(0xF, 0x40)])) [0xF] = [0, 0x202] := by decide
theorem test_rnd_T46a : ((before []).rndWith 0xA7 0xA 0x0F).reg 0xA = 0x07 := by decide
theorem test_rnd_T46c : (after 0xCA00 (before [(0xA, 9)])).draws = 1 ∧ ((before []).rndWith 0xA7 0xA 0x00).reg 0xA = 0x00 := by decide

theorem test_ldIdx_T51 : lookMem (after 0xAFFF State.reset) [] = [0xFFF] := by decide
theorem test_addIdx_T60 : (lookMem (after 0xF21E (before [(2, 0x03)] 0xFFE)) [], look (after 0xF21E (before [(2, 0x03)] 0xFFE)) [0xF])
    = ([0x001], [1, 0x202]) := by decide
theorem test_addIdx_T63b : (lookMem (after 0xFF1E (before [(0xF, 1)] 0xFFE)) [], look (after 0xFF1E (before [(0xF, 1)] 0xFFE)) [0xF])
    = ([0xFFF], [0, 0x202]) := by decide
theorem test_ldF_T52d : lookMem (after 0xF029 (before [(0, 0xFF)])) [] = [0x4FB] := by decide
theorem test_ldB_T53e : lookMem (after 0xF033 (before [(0, 199)] 0x300 [9, 9, 9])) [0x300, 0x301, 0x302] = [1, 9, 9, 0x300] := by decide
theorem test_ldB_T53f : lookMem (after 0xF033 (before [(0, 123)] 0xFFE)) [0xFFE, 0xFFF, 0x000] = [1, 2, 3, 0xFFE] := by decide
theorem test_stRegs_T54a : lookMem (after 0xF255 (before [(0, 1), (1, 2), (2, 3), (3, 0x44)] 0x300)) [0x300, 0x301, 0x302, 0x303]
    = [1, 2, 3, 0, 0x303] := by decide
theorem test_stRegs_T8 : lookMem (after 0xF155 (before [(0, 0x12), (1, 0x34)] 0x200)) [0x200, 0x201] = [0x12, 0x34, 0x202] := by decide
theorem test_ldRegs_T55a : look (after 0xF265 (before [(3, 0x55)] 0x300 [9, 8, 7, 6])) [0, 1, 2, 3] = [9, 8, 7, 0x55, 0x202] := by decide
theorem test_ldRegs_T55c : look (after 0xFF65 State.reset) [0, 1, 4, 5, 14, 15] = [0xF0, 0x90, 0xF0, 0x20, 0xF0, 0xF0, 0x202] := by decide

/-- The pixels set in the first columns and rows of interest, as pairs, then `VF`. -/
def lookPixels (s : State) (ps : List (Fin 64 × Fin 32)) : List Bool × Byte :=
  (ps.map fun p => s.fb.pixel p.1 p.2, s.reg 15)

theorem test_cls_E3 : let t := after 0x00E0 { State.reset with fb := (Frame.clear.flip 63 31).flip 0 0 }
    (lookPixels t [(0, 0), (63, 31)], t.dirty) = (([false, false], 0), true) := by decide
theorem test_drw_T76a : lookPixels (after 0xD011 { before [(0, 3), (1, 2)] 0x300 [0xC0] with
      fb := (Frame.clear.flip 4 2).flip 10 10 }) [(3, 2), (4, 2), (10, 10)] = ([true, false, true], 1) := by decide
theorem test_drw_T74 : lookPixels (after 0xD012 (before [(0, 62), (1, 31)] 0x300 [0xFF, 0xFF]))
    [(62, 31), (63, 31), (0, 31), (5, 31), (6, 31), (62, 0), (5, 0), (6, 0)]
    = ([true, true, true, true, false, true, true, false], 0) := by decide

theorem test_ldVxDt_T80 : look (after 0xF507 { State.reset with dt := 0x3C }) [5] = [0x3C, 0x202] := by decide
theorem test_ldVxK_waits_T82 : let t := after 0xF30A State.reset
    (t.fsm, t.pc, t.reg 3) = (Fsm.awaitingKey, 0x200, 0) := by decide
theorem test_ldVxK_least_T82 : let t := after 0xF30A ((State.reset.keyWrite 7 true).keyWrite 2 true)
    (t.fsm, t.pc, t.reg 3) = (Fsm.running, 0x202, 2) := by decide
theorem test_ldDtVx_T81a : let t := after 0xF515 (before [(5, 0x3C)]); (t.dt, t.st) = (0x3C, 0) := by decide
theorem test_ldStVx_T81b : let t := after 0xF518 (before [(5, 0x08)]); (t.st, t.dt) = (0x08, 0) := by decide

/-! ### Reset and the host's operations -/

theorem test_reset_font_T95 : State.reset.memRead 0x000 = 0xF0 ∧ State.reset.memRead 0x04F = 0x80 ∧
    State.reset.memRead 0x050 = 0 ∧ State.reset.memRead 0x200 = 0 := by decide
theorem test_tick_T85 : let t := { State.reset with dt := 2, st := 1 }.tick
    (t.dt, t.st, t.tick.dt, t.tick.st, t.tick.tick.dt) = (1, 0, 0, 0, 0) := by decide
theorem test_load_T97 : (match State.reset.load (some [0x60, 0x05, 0x61]) with
    | .ok t => lookMem t [0x200, 0x201, 0x202, 0x203]
    | .error _ => []) = [0x60, 0x05, 0x61, 0, 0] := by decide
theorem test_memory_write_of_reset_contents_unlists : (State.reset.memWrite 3 7).memWrite 3 0x90 = State.reset := by decide

/-! ### Witnesses: each statement's hypotheses are met -/

theorem witness_ResetLeavesSpecifiedValues : Op.run .reset State.reset = .next State.reset := rfl
theorem witness_DirtyClearAndFrameRead : (2047 : Fin 2048).val = (31 : Fin 32).val * 64 + (63 : Fin 64).val := by decide
theorem witness_LoadWritesImageOrRejects_accepts : (List.replicate 3584 (0 : Byte)).length ≤ 3584 ∧
    3583 < (List.replicate 3584 (0 : Byte)).length ∧ ∀ k < (List.replicate 3584 (0 : Byte)).length, 0x1FF ≠ 0x200 + k := by
  simp only [List.length_replicate]; exact ⟨Nat.le_refl _, by omega, fun k _ => by omega⟩
theorem witness_LoadWritesImageOrRejects_rejects : 3584 < (List.replicate 3585 (0 : Byte)).length := by
  simp only [List.length_replicate]; omega
theorem witness_StepKeepsInvariant : State.reset.Inv ∧ step State.reset = .next (State.reset.reportUnknown 0) :=
  ⟨⟨State.reset_mem_wf, by decide, by decide, by decide⟩, by rfl⟩
theorem witness_EveryScheduleRunsAndKeepsInvariant : State.reset.Inv := witness_StepKeepsInvariant.1
theorem witness_DecodeOfEncodeIsTheInstruction : (Instr.drw 15 15 15).wellFormed = true := by decide
theorem witness_EncodeOfDecodeIsTheBytes : decode [0x8A, 0xBE, 0x00] = .ok (.shl 0xA 0xB, [0x00]) := by decide
theorem witness_DecoderFollowsOpcodeTable : (⟨"SHL", 0xF00F, 0x800E⟩ : OpRow) ∈ opcodeTable ∧
    OpRow.Matches ⟨"SHL", 0xF00F, 0x800E⟩ 0x8ABE := ⟨by decide, by rfl⟩
theorem witness_MemoryIndexWraps : 0x0FFF % 4096 ≠ 0x1000 % 4096 := by decide
theorem witness_StepRunsDecodedInstruction : let s := State.reset.withFetchWord 16 0x6A2C
    decode [s.memRead s.pc.toNat, s.memRead (s.pc.toNat + 1)] = .ok (.ldImm 0xA 0x2C, []) := by decide
theorem witness_StoredInstructionIsRun : (Instr.drw 0 1 15).wellFormed = true := by decide
theorem unknown_at_reset : decodeWord State.reset.fetchWord = .error (.unknownOpcode 0) := by decide
theorem witness_UnknownOpcodeIsReported : ∀ i, decodeWord State.reset.fetchWord ≠ .ok i := by
  intro i; rw [unknown_at_reset]; exact nofun
theorem witness_ProgramCounterTable : ∀ i, decodeWord State.reset.fetchWord ≠ .ok i := witness_UnknownOpcodeIsReported
theorem witness_ReportMarkIsSticky : ∃ t u, step State.reset = .next t ∧ t.reported = true ∧ Op.run .reset t = .next u ∧
    u.reported = true := ⟨_, _, rfl, rfl, rfl, rfl⟩
theorem witness_KeyWriteChangesOneKey : step State.reset = .next (State.reset.reportUnknown 0) := by rfl
theorem witness_DispatchStateAfterStep : let s := State.reset.withFetchWord 16 0xF30A
    step s = .next s.await ∧ s.await.fsm = .awaitingKey := ⟨by rfl, by rfl⟩
theorem witness_DiagnosticOfAStep_unknown : decodeWord State.reset.fetchWord = .error (.unknownOpcode 0) := unknown_at_reset
theorem witness_DiagnosticOfAStep_underflow : let s := State.reset.withFetchWord 16 0x00EE
    decodeWord s.fetchWord = .ok .ret ∧ instrReports .ret s = some .stackUnderflow := by decide
theorem witness_DiagnosticOfAStep_overflow : let s := { State.reset with sp := 16 }.withFetchWord 16 0x2ABC
    decodeWord s.fetchWord = .ok (.call 0xABC) ∧ instrReports (.call 0xABC) s = some .stackOverflow := by decide
theorem witness_DiagnosticOfAStep_none : let s := { State.reset with sp := 15 }.withFetchWord 16 0x2ABC
    decodeWord s.fetchWord = .ok (.call 0xABC) ∧ instrReports (.call 0xABC) s = none := by decide
theorem witness_SelfJumpAndKeyWaitStay_jump : let s := State.reset.withFetchWord 16 0x1200
    decodeWord s.fetchWord = .ok (.jp 0x200) ∧ s.pc.toNat = (0x200 : BitVec 12).toNat ∧ s.fsm = .running := by decide
theorem witness_SelfJumpAndKeyWaitStay_wait : let s := State.reset.withFetchWord 16 0xF30A
    decodeWord s.fetchWord = .ok (.ldVxK 3) ∧ ∀ k : Fin 16, s.key[k] = false := by decide
theorem witness_OnlyNamedInstructionsWrite_index : ∃ t, exec (.ldIdx 5) State.reset = .next t ∧ t.i ≠ State.reset.i :=
  ⟨_, rfl, by decide⟩
theorem witness_OnlyNamedInstructionsWrite_memory : ∃ t, exec (.ldB 0) (before [(0, 199)]) = .next t ∧
    t.memRead 0 ≠ (before [(0, 199)]).memRead 0 := ⟨_, rfl, by decide⟩
theorem witness_OnlyNamedInstructionsWrite_stack : ∃ t, exec (.call 5) State.reset = .next t ∧
    t.stack[(0 : Fin 16)] ≠ State.reset.stack[(0 : Fin 16)] ∧ t.sp ≠ State.reset.sp := ⟨_, rfl, by decide, by decide⟩
theorem witness_OnlyNamedInstructionsWrite_timers : ∃ t u, exec (.ldDtVx 0) (before [(0, 1)]) = .next t ∧
    t.dt ≠ (before [(0, 1)]).dt ∧ exec (.ldStVx 0) (before [(0, 1)]) = .next u ∧ u.st ≠ (before [(0, 1)]).st :=
  ⟨_, _, rfl, by decide, rfl, by decide⟩
theorem witness_OnlyNamedInstructionsWrite_display : ∃ t, exec (.drw 0 0 1) State.reset = .next t ∧
    t.fb.pixel 0 0 ≠ State.reset.fb.pixel 0 0 ∧ t.dirty ≠ State.reset.dirty := ⟨_, rfl, by decide, by decide⟩
theorem witness_OnlyNamedInstructionsWrite_draws : ∃ t, exec (.rnd 0 0) State.reset = .next t ∧ t.draws ≠ State.reset.draws :=
  ⟨_, rfl, by decide⟩
theorem witness_OnlyNamedRegistersChange : ∃ t, exec (.addReg 0 0) (before [(0, 0x80)]) = .next t ∧
    t.reg 15 ≠ (before [(0, 0x80)]).reg 15 ∧ writesFlag (.addReg 0 0) = true := ⟨_, rfl, by decide, by decide⟩
theorem witness_StepReadsNoStatus : SameExcept [.fsm, .dirty, .st, .stack, .diag, .reported] State.reset
      { State.reset with fsm := .awaitingKey, dirty := true, st := 9, stack := State.reset.stack.set 3 7 } ∧
    ∀ k : Fin 16, k.val + 1 = State.reset.sp.val → (State.reset.stack.set 3 7)[k] = State.reset.stack[k] := by
  refine ⟨fun p hp => ?_, by decide⟩
  cases p <;> first | (simp at hp; done) | rfl | exact fun _ => rfl | exact fun _ _ => rfl
theorem witness_RetPopsOrReportsUnderflow : ({ State.reset with sp := 1 } : State).sp.val = (0 : Fin 16).val + 1 ∧
    ({ State.reset with sp := 16 } : State).sp.val = (15 : Fin 16).val + 1 ∧ State.reset.sp.val = 0 := by decide
theorem witness_CallPushesOrReportsOverflow : State.reset.sp.val = (0 : Fin 16).val ∧
    ({ State.reset with sp := 15 } : State).sp.val = (15 : Fin 16).val ∧ ({ State.reset with sp := 16 } : State).sp.val = 16 := by
  decide
theorem witness_CallThenReturnComesBack : ({ State.reset with sp := 15 } : State).sp.val < 16 := by decide
theorem witness_SkipsOnKey : ((before [(1, 0xFF)]).reg 1).toNat % 16 = (15 : Reg).val ∧
    ((before [(1, 0x10)]).reg 1).toNat % 16 = (0 : Reg).val := by decide
theorem witness_DecimalDigitsAreStored : ∀ k < 3, memIndex 2 ≠ memIndex ((before [] 0xFFF).effAddr k) := by decide
theorem witness_RegistersAreStored : (0 : Reg) ≤ 0 ∧ (15 : Reg) ≤ 15 ∧
    ∀ k : Reg, k ≤ 15 → memIndex 8 ≠ memIndex ((before [] 0xFF8).effAddr k.val) := by decide
theorem witness_StoreThenLoadRestoresRegisters : ∃ t, exec (.stRegs 3) (before [(0, 0xDE)] 0x400) = .next t ∧
    SameExcept [.v, .i, .pc, .fsm, .diag] t { t with v := State.reset.v, i := 0x400 } ∧
    ({ t with v := State.reset.v, i := 0x400 } : State).i = (before [(0, 0xDE)] 0x400).i := by
  refine ⟨_, rfl, fun p hp => ?_, by decide⟩
  cases p <;> first | (simp at hp; done) | rfl | exact fun _ => rfl | exact fun _ _ => rfl
theorem sameExcept_pc (t : State) (w : BitVec 16) : SameExcept [.pc] t { t with pc := w } := by
  intro p hp
  cases p <;> first | (simp at hp; done) | rfl | exact fun _ => rfl | exact fun _ _ => rfl
theorem witness_StoredWordIsFetched : ∃ t, exec (.stRegs 1) (before [] 0xFFF) = .next t ∧ (0 : Reg) < 1 ∧
    SameExcept [.pc] t { t with pc := 0xFFFF } ∧
    memIndex ({ t with pc := 0xFFFF } : State).pc.toNat = memIndex ((before [] 0xFFF).effAddr (0 : Reg).val) :=
  ⟨_, rfl, by decide, sameExcept_pc _ _, by decide⟩
theorem witness_DrawTogglesSpritePixels_bounds : (0 : Nat) < 16 ∧ (15 : Nat) < 16 := by decide
theorem witness_DrawTogglesSpritePixels_covered : SpriteCovers (before [(0, 62), (1, 31)] 0x300 [0xFF, 0xFF]) 0 1 2 5 0 :=
  ⟨1, by decide, 7, by decide, by decide, by decide, by decide⟩
theorem witness_DrawTogglesSpritePixels_uncovered : ∀ px py, ¬SpriteCovers State.reset 0 1 0 px py := by
  rintro px py ⟨r, hr, -⟩; omega
theorem witness_DrawTwiceRestoresFramebuffer : ∃ t, exec (.drw 0 1 15) State.reset = .next t ∧ (15 : Nat) < 16 ∧
    (0 : Reg) ≠ 15 ∧ (1 : Reg) ≠ 15 := ⟨_, rfl, by decide, by decide, by decide⟩
theorem witness_KeyWaitTakesLeastKey_waits : ∀ k : Fin 16, State.reset.key[k] = false := by decide
theorem witness_KeyWaitTakesLeastKey_takes : let s := State.reset.keyWrite 15 true
    s.key[(15 : Fin 16)] = true ∧ ∀ j : Fin 16, j < 15 → s.key[j] = false := by decide

end Sys2Proof.Tests
end

section
/-! Family `10_state.md`. What an instruction may change, part by part and register by register; that every step and every
host operation answers and keeps the invariant; what a reset leaves. -/

namespace Sys2Proof.Machine

/-! ### A frame is an equation: the new state agrees with the old one laid under its written parts -/

/-- The state `s` with the parts `ps` taken from `t`. -/
def State.overlay (ps : List Part) (t s : State) : State where
  mem := if ps.contains .mem then t.mem else s.mem
  v := if ps.contains .v then t.v else s.v
  pc := if ps.contains .pc then t.pc else s.pc
  i := if ps.contains .i then t.i else s.i
  stack := if ps.contains .stack then t.stack else s.stack
  sp := if ps.contains .sp then t.sp else s.sp
  dt := if ps.contains .dt then t.dt else s.dt
  st := if ps.contains .st then t.st else s.st
  fb := if ps.contains .fb then t.fb else s.fb
  dirty := if ps.contains .dirty then t.dirty else s.dirty
  key := if ps.contains .key then t.key else s.key
  fsm := if ps.contains .fsm then t.fsm else s.fsm
  diag := if ps.contains .diag then t.diag else s.diag
  reported := if ps.contains .reported then t.reported else s.reported
  draws := if ps.contains .draws then t.draws else s.draws

theorem sameExcept_overlay (ps : List Part) (t s : State) : SameExcept ps s (State.overlay ps t s) := by
  intro p hp
  cases p <;> simp [Part.Same, State.overlay, State.memRead, State.reg, hp]

/-- A state that is another one but for some parts has the frame of those parts; for the model's operations the equation
holds by `rfl`. -/
theorem sameExcept_of_overlay {ps : List Part} {s t : State} (h : State.overlay ps t s = t) : SameExcept ps s t :=
  h ▸ sameExcept_overlay ps t s

/-! ### The parts an instruction may write -/

/-- What holds of some answer of an instruction, step or operation holds of the state it answers. -/
theorem of_eq_next {o : Host.Outcome State Fault Refusal} {t : State} {P : State → Prop} (h : o = .next t)
    (hP : ∃ u, o = .next u ∧ P u) : P t := by
  obtain ⟨u, hu, hPu⟩ := hP
  exact Host.Outcome.next.inj (hu.symm.trans h) ▸ hPu

/-- The parts an instruction may write: every one writes `PC`, `FSM` and the record of the diagnostic (`40_step.md` R90). -/
def mayWrite : Instr → List Part
  | .jp _ | .seImm _ _ | .sneImm _ _ | .seReg _ _ | .sneReg _ _ | .jpV0 _ | .skp _ | .sknp _ => [.pc, .fsm, .diag]
  | .ldImm _ _ | .addImm _ _ | .ldReg _ _ | .orReg _ _ | .andReg _ _ | .xorReg _ _ => [.v, .pc, .fsm, .diag]
  | .addReg _ _ | .sub _ _ | .shr _ _ | .subn _ _ | .shl _ _ | .ldVxDt _ | .ldVxK _ => [.v, .pc, .fsm, .diag]
  | .cls => [.fb, .dirty, .pc, .fsm, .diag]
  | .drw _ _ _ => [.v, .fb, .dirty, .pc, .fsm, .diag]
  | .ret => [.sp, .pc, .fsm, .diag, .reported]
  | .call _ => [.stack, .sp, .pc, .fsm, .diag, .reported]
  | .rnd _ _ => [.v, .draws, .pc, .fsm, .diag]
  | .ldDtVx _ => [.dt, .pc, .fsm, .diag]
  | .ldStVx _ => [.st, .pc, .fsm, .diag]
  | .ldIdx _ | .ldF _ => [.i, .pc, .fsm, .diag]
  | .addIdx _ | .ldRegs _ => [.v, .i, .pc, .fsm, .diag]
  | .ldB _ => [.mem, .pc, .fsm, .diag]
  | .stRegs _ => [.mem, .i, .pc, .fsm, .diag]

/-- Every instruction answers, and changes only the parts it may write. -/
theorem exec_frame (i : Instr) (s : State) : ∃ t, exec i s = .next t ∧ SameExcept (mayWrite i) s t := by
  cases i with
  | ret => obtain ⟨_, h⟩ | ⟨-, h⟩ := execRet_cases s <;> exact ⟨_, h, sameExcept_of_overlay rfl⟩
  | call nnn => obtain ⟨_, h⟩ | ⟨-, h⟩ := execCall_cases nnn s <;> exact ⟨_, h, sameExcept_of_overlay rfl⟩
  | ldVxK x => obtain ⟨-, h⟩ | ⟨_, -, h⟩ := execLdVxK_cases x s <;> exact ⟨_, h, sameExcept_of_overlay rfl⟩
  | ldB x | stRegs x =>
    refine ⟨_, rfl, ?_⟩
    rw [State.memWriteList_eq]
    exact sameExcept_of_overlay rfl
  | _ => exact ⟨_, rfl, sameExcept_of_overlay rfl⟩

/-- A part that an instruction changed is one it may write. -/
theorem mem_mayWrite_of_changed {i : Instr} {s t : State} {p : Part} (h : exec i s = .next t) (hp : ¬p.Same s t) :
    p ∈ mayWrite i :=
  by_contra fun hn => hp (of_eq_next h (exec_frame i s) p hn)

/-! ### The table read the other way: the instructions that may write a part -/

theorem key_notMem_mayWrite (i : Instr) : .key ∉ mayWrite i := by cases i <;> simp [mayWrite]

theorem mem_mem_mayWrite {i : Instr} : .mem ∈ mayWrite i ↔ ∃ x, i = .ldB x ∨ i = .stRegs x := by
  cases i <;> simp [mayWrite]

theorem i_mem_mayWrite {i : Instr} : .i ∈ mayWrite i ↔
    (∃ nnn, i = .ldIdx nnn) ∨ ∃ x, i = .addIdx x ∨ i = .ldF x ∨ i = .stRegs x ∨ i = .ldRegs x := by
  cases i <;> simp [mayWrite]

theorem stack_mem_mayWrite {i : Instr} : .stack ∈ mayWrite i ↔ ∃ nnn, i = .call nnn := by
  cases i <;> simp [mayWrite]

theorem sp_mem_mayWrite {i : Instr} : .sp ∈ mayWrite i ↔ i = .ret ∨ ∃ nnn, i = .call nnn := by
  cases i <;> simp [mayWrite]

theorem dt_mem_mayWrite {i : Instr} : .dt ∈ mayWrite i ↔ ∃ x, i = .ldDtVx x := by cases i <;> simp [mayWrite]

theorem st_mem_mayWrite {i : Instr} : .st ∈ mayWrite i ↔ ∃ x, i = .ldStVx x := by cases i <;> simp [mayWrite]

theorem fb_mem_mayWrite {i : Instr} : .fb ∈ mayWrite i ↔ i = .cls ∨ ∃ x y n, i = .drw x y n := by
  cases i <;> simp [mayWrite]

theorem dirty_mem_mayWrite {i : Instr} : .dirty ∈ mayWrite i ↔ i = .cls ∨ ∃ x y n, i = .drw x y n := by
  cases i <;> simp [mayWrite]

theorem draws_mem_mayWrite {i : Instr} : .draws ∈ mayWrite i ↔ ∃ x nn, i = .rnd x nn := by
  cases i <;> simp [mayWrite]

/-- The two instructions that write `DIRTY` set it (`10_state.md` R29). -/
theorem dirty_of_cls_or_drw {i : Instr} {s t : State} (h : exec i s = .next t)
    (hi : i = .cls ∨ ∃ x y n, i = .drw x y n) : t.dirty = true := by
  obtain rfl | ⟨x, y, n, rfl⟩ := hi
  · exact of_eq_next (P := fun u => u.dirty = true) h ⟨_, rfl, rfl⟩
  · exact of_eq_next (P := fun u => u.dirty = true) h ⟨_, rfl, rfl⟩

/-! ### What an instruction does to the registers -/

/-- The register file of `t` after the instruction `i` in `s`: as before, or with the destination written, a flag, or both,
or with `V0` to `VX` loaded by `FX65`. -/
inductive RegsAfter (i : Instr) (s t : State) : Prop where
  | kept (hf : writesFlag i = false) (hv : t.v = s.v)
  | dest (x : Reg) (b : Byte) (hd : destReg i = some x) (hf : writesFlag i = false) (hv : t.v = (s.setReg x b).v)
  | flag (f : Bool) (hf : writesFlag i = true) (hv : t.v = (s.setFlag f).v)
  | destFlag (x : Reg) (b : Byte) (f : Bool) (hd : destReg i = some x) (hf : writesFlag i = true)
      (hv : t.v = (s.setRegFlag x b f).v)
  | range (x : Reg) (f : Nat → Byte) (hi : i = .ldRegs x) (hv : t.v = regsSetBelow s.v f (x.val + 1) x.isLt)

/-- Every instruction answers with its registers in one of those forms. -/
theorem exec_regsAfter (i : Instr) (s : State) : ∃ t, exec i s = .next t ∧ RegsAfter i s t :=
  match i with
  | .cls | .jp _ | .seImm _ _ | .sneImm _ _ | .seReg _ _ | .sneReg _ _ | .ldIdx _ | .jpV0 _ | .skp _ | .sknp _
  | .ldDtVx _ | .ldStVx _ | .ldF _ => ⟨_, rfl, .kept rfl rfl⟩
  | .ldB _ | .stRegs _ => ⟨_, rfl, .kept rfl (State.memWriteList_v _ _ _)⟩
  | .ret =>
    match execRet_cases s with
    | .inl ⟨_, h⟩ => ⟨_, h, .kept rfl rfl⟩
    | .inr ⟨_, h⟩ => ⟨_, h, .kept rfl rfl⟩
  | .call nnn =>
    match execCall_cases nnn s with
    | .inl ⟨_, h⟩ => ⟨_, h, .kept rfl rfl⟩
    | .inr ⟨_, h⟩ => ⟨_, h, .kept rfl rfl⟩
  | .ldImm _ _ | .addImm _ _ | .ldReg _ _ | .orReg _ _ | .andReg _ _ | .xorReg _ _ | .rnd _ _ | .ldVxDt _ =>
    ⟨_, rfl, .dest _ _ rfl rfl rfl⟩
  | .ldVxK x =>
    match execLdVxK_cases x s with
    | .inl ⟨_, h⟩ => ⟨_, h, .kept rfl rfl⟩
    | .inr ⟨_, _, h⟩ => ⟨_, h, .dest _ _ rfl rfl rfl⟩
  | .addReg _ _ | .sub _ _ | .shr _ _ | .subn _ _ | .shl _ _ => ⟨_, rfl, .destFlag _ _ _ rfl rfl rfl⟩
  | .drw _ _ _ | .addIdx _ => ⟨_, rfl, .flag _ rfl rfl⟩
  | .ldRegs _ => ⟨_, rfl, .range _ _ rfl rfl⟩

/-- A register that changed is the destination, or in the range of `FX65`, or the flag. -/
theorem RegsAfter.changed {i : Instr} {s t : State} (h : RegsAfter i s t) {r : Reg} (hr : t.reg r ≠ s.reg r) :
    destReg i = some r ∨ (∃ x, i = .ldRegs x ∧ r ≤ x) ∨ (r = 15 ∧ writesFlag i = true) := by
  cases h with
  | kept _ hv => exact absurd (State.reg_congr hv r) hr
  | dest x b hd _ hv =>
    rw [State.reg_congr hv, State.reg_setReg] at hr
    have hx : r = x := by_contra fun hn => hr (if_neg hn)
    exact .inl (hx ▸ hd)
  | flag f hf hv =>
    rw [State.reg_congr hv, State.reg_setFlag] at hr
    exact .inr (.inr ⟨by_contra fun hn => hr (if_neg hn), hf⟩)
  | destFlag x b f hd hf hv =>
    rw [State.reg_congr hv, State.reg_setRegFlag] at hr
    by_cases h15 : r = flagReg
    · exact .inr (.inr ⟨h15, hf⟩)
    · rw [if_neg h15] at hr
      have hx : r = x := by_contra fun hn => hr (if_neg hn)
      exact .inl (hx ▸ hd)
  | range x f hi hv =>
    refine .inr (.inl ⟨x, hi, ?_⟩)
    by_contra hn
    have hlt : ¬r.val < x.val + 1 := fun hlt => hn (Nat.le_of_lt_succ hlt)
    have hget : t.v[r.val] = s.v[r.val] := by simp only [hv, regsSetBelow_get, if_neg hlt]
    exact hr hget

theorem flagByte_eq_zero_or_one (f : Bool) : flagByte f = 0 ∨ flagByte f = 1 := by
  cases f
  · exact .inl rfl
  · exact .inr rfl

/-- After an instruction that writes a flag, `VF` is 0 or 1. -/
theorem RegsAfter.flag_reg {i : Instr} {s t : State} (h : RegsAfter i s t) (hw : writesFlag i = true) :
    t.reg 15 = 0 ∨ t.reg 15 = 1 := by
  cases h with
  | kept hf _ | dest _ _ _ hf _ => exact absurd (hf.symm.trans hw) Bool.false_ne_true
  | range x f hi _ => subst hi; exact absurd hw Bool.false_ne_true
  | flag f _ hv =>
    have hreg : t.reg 15 = flagByte f := by rw [State.reg_congr hv, State.reg_setFlag]; rfl
    exact hreg ▸ flagByte_eq_zero_or_one f
  | destFlag x b f _ _ hv =>
    have hreg : t.reg 15 = flagByte f := by rw [State.reg_congr hv, State.reg_setRegFlag]; rfl
    exact hreg ▸ flagByte_eq_zero_or_one f

/-! ### The load -/

/-- A load writes the image to the program start, or leaves the state as it was (`70_reset_and_hazards.md` R205, R206). -/
theorem load_cases (image : Option (List Byte)) (s : State) :
    (∃ bytes, Op.run (.load image) s = .next (s.memWriteList Config.programStart bytes)) ∨
      Op.run (.load image) s = .next s := by
  cases image with
  | none => exact .inr rfl
  | some bytes =>
    by_cases hlen : bytes.length > loadCapacity
    · exact .inr (by simp only [Op.run, State.load, if_pos hlen])
    · exact .inl ⟨bytes, by simp only [Op.run, State.load, if_neg hlen]⟩

/-! ### The invariant: one lemma an operation that touches it

`State.Inv` speaks of `mem`, `i`, `diag`, `reported` and `fsm` alone, so an operation on another field leaves it, as
stated, the same proposition. -/

theorem State.hostReset_inv (s : State) : s.hostReset.Inv :=
  ⟨State.reset_mem_wf, Nat.zero_le _, fun hd => absurd rfl hd, fun _ => rfl⟩

section
variable {s : State} (h : s.Inv)
include h

theorem State.Inv.memWriteList (a : Nat) (bs : List Byte) : (s.memWriteList a bs).Inv := by
  have hmem := State.memWriteList_wf h.1 a bs
  rw [State.memWriteList_eq]
  exact ⟨hmem, h.2⟩

theorem State.Inv.setI (n : Nat) : (s.setI n).Inv :=
  ⟨h.1, by rw [State.setI_toNat]; omega, h.2.2⟩

theorem State.Inv.retire (n : Word) : (s.retire n).Inv := ⟨h.1, h.2.1, fun hd => absurd rfl hd, fun _ => rfl⟩

theorem State.Inv.advance : s.advance.Inv := h.retire _

theorem State.Inv.await : s.await.Inv := ⟨h.1, h.2.1, fun hd => absurd rfl hd, fun _ => rfl⟩

theorem State.Inv.report (k : DiagKind) (op : Word) : (s.report k op).Inv := ⟨h.1, h.2.1, fun _ => rfl, nofun⟩

/-- Every instruction answers and keeps the invariant. -/
theorem exec_inv (i : Instr) : ∃ t, exec i s = .next t ∧ t.Inv := by
  cases i with
  | ret =>
    obtain ⟨_, he⟩ | ⟨-, he⟩ := execRet_cases s
    · exact ⟨_, he, State.Inv.retire (s := s.pop) h _⟩
    · exact ⟨_, he, h.report _ _⟩
  | call nnn =>
    obtain ⟨hlt, he⟩ | ⟨-, he⟩ := execCall_cases nnn s
    · exact ⟨_, he, State.Inv.retire (s := s.push _ hlt) h _⟩
    · exact ⟨_, he, h.report _ _⟩
  | ldVxK x =>
    obtain ⟨-, he⟩ | ⟨_, -, he⟩ := execLdVxK_cases x s
    · exact ⟨_, he, h.await⟩
    · exact ⟨_, he, State.Inv.advance (s := s.setReg _ _) h⟩
  | ldB x => exact ⟨_, rfl, (h.memWriteList _ _).advance⟩
  | stRegs x => exact ⟨_, rfl, ((h.memWriteList _ _).setI _).advance⟩
  | ldIdx _ | ldF _ => exact ⟨_, rfl, (h.setI _).advance⟩
  | addIdx x => exact ⟨_, rfl, State.Inv.advance (s := (s.setI _).setFlag _) (h.setI _)⟩
  | ldRegs x => exact ⟨_, rfl, (State.Inv.setI (s := { s with v := _ }) h _).advance⟩
  | jp _ | jpV0 _ | seImm _ _ | sneImm _ _ | seReg _ _ | sneReg _ _ | skp _ | sknp _ => exact ⟨_, rfl, h.retire _⟩
  | _ => exact ⟨_, rfl, State.Inv.advance h⟩

/-- Every step answers and keeps the invariant. -/
theorem step_inv : ∃ t, step s = .next t ∧ t.Inv := by
  obtain ⟨i, -, hs⟩ | ⟨_, -, hs⟩ := step_cases s
  · exact hs ▸ exec_inv h i
  · exact ⟨_, hs, h.report _ _⟩

/-- Every operation answers and keeps the invariant. -/
theorem op_inv (o : Op) : ∃ t, o.run s = .next t ∧ t.Inv := by
  cases o with
  | reset => exact ⟨_, rfl, s.hostReset_inv⟩
  | load image =>
    obtain ⟨bytes, hl⟩ | hl := load_cases image s
    · exact ⟨_, hl, h.memWriteList _ _⟩
    · exact ⟨s, hl, h⟩
  | step => exact step_inv h
  | tick | keyWrite _ _ | dirtyClear => exact ⟨_, rfl, h⟩

end

/-- Every schedule answers and keeps the invariant. -/
theorem runOps_inv (os : List Op) {s : State} (h : s.Inv) : ∃ t, runOps os s = .next t ∧ t.Inv := by
  induction os generalizing s with
  | nil => exact ⟨s, rfl, h⟩
  | cons o os ih =>
    obtain ⟨u, hu, hinv⟩ := op_inv h o
    rw [runOps, hu]
    exact ih hinv

/-! ### What a cell reads as after reset -/

theorem some_unlisted_of_lt {a : Nat} (h : a < 80) : Config.font[a]? = some (Memory.unlisted a) := by
  have hlt : a < Config.font.length := h
  rw [Memory.unlisted, List.getElem?_eq_getElem hlt, Option.getD_some]

theorem unlisted_of_le {a : Nat} (h : 80 ≤ a) : Memory.unlisted a = 0 := by
  rw [Memory.unlisted, List.getElem?_eq_none h, Option.getD_none]

theorem State.memRead_hostReset (s : State) {a : Nat} (h : a < 4096) : s.hostReset.memRead a = Memory.unlisted a :=
  congrArg Memory.unlisted (Nat.mod_eq_of_lt h)

/-! ### The obligations -/

/-- Settles O8: each instruction is a chain of operations that keep the invariant's clauses, closed by one of the endings
that establish the clauses on the diagnostic. -/
theorem stepKeepsInvariant : Obligations.StepKeepsInvariant := by
  intro s t h hst
  exact of_eq_next hst (step_inv h)

/-- Settles O9, by induction on the schedule. -/
theorem everyScheduleRunsAndKeepsInvariant : Obligations.EveryScheduleRunsAndKeepsInvariant := by
  intro os s h
  obtain ⟨t, ht, hinv⟩ := runOps_inv os h
  exact ⟨t, ht, hinv, Nat.le_of_lt_succ t.sp.isLt, hinv.2.1⟩

/-- Settles O26: a changed part is one of the instruction's row in `mayWrite`. -/
theorem onlyNamedInstructionsWrite : Obligations.OnlyNamedInstructionsWrite := by
  intro i s t h
  have written : ∀ p : Part, ¬p.Same s t → p ∈ mayWrite i := fun p => mem_mayWrite_of_changed h
  refine ⟨of_eq_next h (exec_frame i s) .key (key_notMem_mayWrite i), ?mem, fun hne => i_mem_mayWrite.1 (written .i hne),
    ?stack, fun hne => sp_mem_mayWrite.1 (written .sp hne), fun hne => dt_mem_mayWrite.1 (written .dt hne),
    fun hne => st_mem_mayWrite.1 (written .st hne), ?fb, ?dirty, fun hne => draws_mem_mayWrite.1 (written .draws hne)⟩
  case mem => exact fun ⟨a, ha⟩ => mem_mem_mayWrite.1 (written .mem fun hsame => ha (hsame a))
  case stack => exact fun ⟨k, hk⟩ => stack_mem_mayWrite.1 (written .stack fun hsame => hk (hsame k))
  case fb => exact fun ⟨x, y, hxy⟩ => fb_mem_mayWrite.1 (written .fb fun hsame => hxy (hsame x y))
  case dirty =>
    intro hne
    have hi := dirty_mem_mayWrite.1 (written .dirty hne)
    exact ⟨dirty_of_cls_or_drw h hi, hi⟩

/-- Settles O27: by the form of the register file after the instruction. -/
theorem onlyNamedRegistersChange : Obligations.OnlyNamedRegistersChange := by
  intro i s t h
  have hregs := of_eq_next h (exec_regsAfter i s)
  exact ⟨fun _ => hregs.changed, hregs.flag_reg⟩

/-- Settles O1: the constant is a host's reset too, and all but memory is a field of it. -/
theorem resetLeavesSpecifiedValues : Obligations.ResetLeavesSpecifiedValues := by
  intro s t ht
  obtain ⟨u, rfl⟩ : ∃ u : State, t = u.hostReset := by
    obtain h | h := ht
    · exact ⟨s, (Host.Outcome.next.inj h).symm⟩
    · exact ⟨State.reset, h⟩
  refine ⟨fun a ha => ?font, fun a ha h80 => ?zero, ?v, rfl, rfl, ?stack, rfl, rfl, rfl, Frame.pixel_clear, rfl, ?key,
    rfl, rfl⟩
  case font => rw [State.memRead_hostReset u (by omega), some_unlisted_of_lt ha]
  case zero => rw [State.memRead_hostReset u ha, unlisted_of_le h80]
  case v => exact fun r => Vector.getElem_replicate r.isLt
  case stack => exact fun k => Vector.getElem_replicate k.isLt
  case key => exact fun k => Vector.getElem_replicate k.isLt

/-- Settles O7: the reset state is what a host's reset leaves of itself. -/
theorem resetMeetsInvariant : Obligations.ResetMeetsInvariant :=
  State.hostReset_inv State.reset

end Sys2Proof.Machine
end

section
/-! Family `20_memory.md`. An address counts only by its cell, for a read and for a write; a word that `FX55` stored is the
word a fetch at its address reads. -/

namespace Sys2Proof.Machine

/-! ### An address counts only by the cell it reaches (R50) -/

theorem State.memWrite_memIndex (s : State) (a : Nat) (b : Byte) : s.memWrite (memIndex a) b = s.memWrite a b := by
  simp only [State.memWrite, memIndex_memIndex]

theorem State.memRead_congr_memIndex (s : State) {a c : Nat} (h : memIndex a = memIndex c) : s.memRead a = s.memRead c :=
  congrArg s.mem.read h

/-- Addresses of one cell are followed by addresses of one cell, from 0xFFF to 0x000 too. -/
theorem memIndex_succ_congr {a c : Nat} (h : memIndex a = memIndex c) : memIndex (a + 1) = memIndex (c + 1) :=
  Nat.ModEq.add_right 1 h

/-! ### What is stored and what is fetched (R52, R61) -/

/-- `FX55` answers, with `Vk` at `I + k` for every `k` up to `X` (`44_index_memory.md` R144). -/
theorem exec_stRegs_stores (x : Reg) (s : State) :
    ∃ t, exec (.stRegs x) s = .next t ∧ ∀ k : Reg, k ≤ x → t.memRead (s.effAddr k.val) = s.reg k := by
  refine ⟨_, rfl, fun k hk => ?_⟩
  have hlen : (s.regsUpTo x).length ≤ 4096 := by rw [State.regsUpTo_length]; omega
  have hlt : k.val < (s.regsUpTo x).length := by rw [State.regsUpTo_length]; exact Nat.lt_succ_of_le hk
  exact (State.memRead_memWriteList_at s (s.effAddr 0) k.val _ hlen hlt).trans (State.regsUpTo_get s x k.val hlt)

/-- The word fetched where `PC` reaches the cell of `a` is the byte at `a` and the byte after it. -/
theorem State.fetchWord_toNat_of_memIndex (s : State) {a : Nat} (h : memIndex s.pc.toNat = memIndex a) :
    s.fetchWord.toNat = (s.memRead a).toNat * 256 + (s.memRead (a + 1)).toNat := by
  rw [State.fetchWord, wordOfBytes_toNat, State.memRead_congr_memIndex s h,
    State.memRead_congr_memIndex s (memIndex_succ_congr h)]

/-! ### The obligations -/

/-- Settles O48: the fetch reads `I + k` and `I + k + 1`, the addresses of `Vk` and of the register after it. -/
theorem storedWordIsFetched : Obligations.StoredWordIsFetched := by
  intro x k s t u ht hk hu hpc
  have hstored := of_eq_next ht (exec_stRegs_stores x s)
  have hmem : ∀ a, u.memRead a = t.memRead a := hu .mem (by decide)
  have hsucc : (k + 1).val = k.val + 1 := Fin.val_add_one_of_lt (hk.trans_le x.le_last)
  have hle : k + 1 ≤ x := Fin.add_one_le_of_lt hk
  have hfirst : u.memRead (s.effAddr k.val) = s.reg k := (hmem _).trans (hstored k hk.le)
  have hsecond : u.memRead (s.effAddr k.val + 1) = s.reg (k + 1) := by
    rw [hmem, ← hstored (k + 1) hle, hsucc, State.effAddr, State.effAddr, Nat.add_assoc]
  rw [State.fetchWord_toNat_of_memIndex u hpc, hfirst, hsecond]

/-- Settles O15: the remainder is the cell, and a write is read back at its own cell only. -/
theorem memoryIndexWraps : Obligations.MemoryIndexWraps := by
  intro s a b
  refine ⟨(State.memRead_memIndex s a).symm, (State.memWrite_memIndex s a b).symm, ?same, fun c hc => ?other⟩
  case same => exact (State.memRead_memWrite s a (memIndex a) b).trans (if_pos (memIndex_memIndex a))
  case other => exact (State.memRead_memWrite s a c b).trans (if_neg hc)

end Sys2Proof.Machine
end

section
/-! Family `30_encoding.md`. The decoder and the encoder are inverse to each other on the well-formed instructions; the rows of
the opcode table are the words that decode; the words that do not, told apart by a group's low bits, and their number. -/

namespace Sys2Proof.Machine

/-! ### Decoding an encoded instruction -/

/-- A format's number in the order the spellings of `30_encoding.md` R78 add it up: the fixed digits first. -/
theorem formatXYN_toNat_fixed_first (g : BitVec 4) (x y : Reg) (n : BitVec 4) :
    (formatXYN g x y n).toNat = g.toNat * 4096 + n.toNat + x.val * 256 + y.val * 16 := by
  rw [formatXYN_toNat]; omega

theorem formatXF_toNat_fixed_first (g : BitVec 4) (x : Reg) (f : Byte) :
    (formatXF g x f).toNat = g.toNat * 4096 + f.toNat + x.val * 256 := by
  rw [formatXF_toNat]; omega

theorem Spells.decodeWord {w : Nat} {i : Instr} (h : Spells w i) {op : Word} (hop : op.toNat = w) :
    decodeWord op = .ok i := by
  have hd := h.2
  rwa [← hop, BitVec.ofNat_toNat, BitVec.setWidth_eq] at hd

/-- The word of a well-formed instruction is one of the spellings of R78. -/
theorem decodeWord_encodeWord : ∀ i : Instr, i.wellFormed = true → decodeWord (encodeWord i) = .ok i
  | .cls, _ => spells_cls.decodeWord rfl
  | .ret, _ => spells_ret.decodeWord rfl
  | .jp nnn, _ => (spells_jp nnn).decodeWord (formatA_toNat 0x1 _)
  | .call nnn, _ => (spells_call nnn).decodeWord (formatA_toNat 0x2 _)
  | .ldIdx nnn, _ => (spells_ldIdx nnn).decodeWord (formatA_toNat 0xA _)
  | .jpV0 nnn, _ => (spells_jpV0 nnn).decodeWord (formatA_toNat 0xB _)
  | .seImm x nn, _ => (spells_seImm x nn).decodeWord (formatXB_toNat 0x3 _ _)
  | .sneImm x nn, _ => (spells_sneImm x nn).decodeWord (formatXB_toNat 0x4 _ _)
  | .ldImm x nn, _ => (spells_ldImm x nn).decodeWord (formatXB_toNat 0x6 _ _)
  | .addImm x nn, _ => (spells_addImm x nn).decodeWord (formatXB_toNat 0x7 _ _)
  | .rnd x nn, _ => (spells_rnd x nn).decodeWord (formatXB_toNat 0xC _ _)
  | .seReg x y, _ => (spells_seReg x y).decodeWord (formatXYN_toNat_fixed_first 0x5 _ _ 0x0)
  | .ldReg x y, _ => (spells_ldReg x y).decodeWord (formatXYN_toNat_fixed_first 0x8 _ _ 0x0)
  | .orReg x y, _ => (spells_orReg x y).decodeWord (formatXYN_toNat_fixed_first 0x8 _ _ 0x1)
  | .andReg x y, _ => (spells_andReg x y).decodeWord (formatXYN_toNat_fixed_first 0x8 _ _ 0x2)
  | .xorReg x y, _ => (spells_xorReg x y).decodeWord (formatXYN_toNat_fixed_first 0x8 _ _ 0x3)
  | .addReg x y, _ => (spells_addReg x y).decodeWord (formatXYN_toNat_fixed_first 0x8 _ _ 0x4)
  | .sub x y, _ => (spells_sub x y).decodeWord (formatXYN_toNat_fixed_first 0x8 _ _ 0x5)
  | .shr x y, _ => (spells_shr x y).decodeWord (formatXYN_toNat_fixed_first 0x8 _ _ 0x6)
  | .subn x y, _ => (spells_subn x y).decodeWord (formatXYN_toNat_fixed_first 0x8 _ _ 0x7)
  | .shl x y, _ => (spells_shl x y).decodeWord (formatXYN_toNat_fixed_first 0x8 _ _ 0xE)
  | .sneReg x y, _ => (spells_sneReg x y).decodeWord (formatXYN_toNat_fixed_first 0x9 _ _ 0x0)
  | .drw x y n, h => by
    have hn : n < 16 := of_decide_eq_true h
    refine (spells_drw x y n hn).decodeWord ((formatXYN_toNat 0xD x y _).trans ?_)
    rw [BitVec.toNat_ofNat, Nat.mod_eq_of_lt hn]
    rfl
  | .skp x, _ => (spells_skp x).decodeWord (formatXF_toNat_fixed_first 0xE _ 0x9E)
  | .sknp x, _ => (spells_sknp x).decodeWord (formatXF_toNat_fixed_first 0xE _ 0xA1)
  | .ldVxDt x, _ => (spells_ldVxDt x).decodeWord (formatXF_toNat_fixed_first 0xF _ 0x07)
  | .ldVxK x, _ => (spells_ldVxK x).decodeWord (formatXF_toNat_fixed_first 0xF _ 0x0A)
  | .ldDtVx x, _ => (spells_ldDtVx x).decodeWord (formatXF_toNat_fixed_first 0xF _ 0x15)
  | .ldStVx x, _ => (spells_ldStVx x).decodeWord (formatXF_toNat_fixed_first 0xF _ 0x18)
  | .addIdx x, _ => (spells_addIdx x).decodeWord (formatXF_toNat_fixed_first 0xF _ 0x1E)
  | .ldF x, _ => (spells_ldF x).decodeWord (formatXF_toNat_fixed_first 0xF _ 0x29)
  | .ldB x, _ => (spells_ldB x).decodeWord (formatXF_toNat_fixed_first 0xF _ 0x33)
  | .stRegs x, _ => (spells_stRegs x).decodeWord (formatXF_toNat_fixed_first 0xF _ 0x55)
  | .ldRegs x, _ => (spells_ldRegs x).decodeWord (formatXF_toNat_fixed_first 0xF _ 0x65)

/-! ### A word is put together from its fields -/

section
variable {op : Word} {g : BitVec 4} (hg : (fieldG op).toNat = g.toNat)
include hg

theorem formatA_fields : formatA g (fieldNNN op) = op := by
  apply BitVec.eq_of_toNat_eq
  rw [formatA_toNat, ← hg, fieldG_toNat, fieldNNN_toNat]
  omega

theorem formatXB_fields : formatXB g (fieldX op) (fieldNN op) = op := by
  apply BitVec.eq_of_toNat_eq
  rw [formatXB_toNat, ← hg, fieldG_toNat, fieldX_val, fieldNN_toNat]
  omega

theorem formatXYN_fields {n : BitVec 4} (hn : (fieldN op).toNat = n.toNat) :
    formatXYN g (fieldX op) (fieldY op) n = op := by
  apply BitVec.eq_of_toNat_eq
  rw [formatXYN_toNat, ← hg, ← hn, fieldG_toNat, fieldX_val, fieldY_val, fieldN_toNat]
  omega

theorem formatXF_fields {f : Byte} (hf : (fieldNN op).toNat = f.toNat) : formatXF g (fieldX op) f = op := by
  rw [← BitVec.eq_of_toNat_eq hf]
  exact formatXB_fields hg

end

/-! ### The low bits that tell the instructions of a group apart (R75) -/

/-- How many low bits of a word the decoder looks at, beside the group digit, to tell the instructions of group `g` apart. -/
def keyWidth : Nat → Nat
  | 0x0 => 12
  | 0x5 | 0x8 | 0x9 => 4
  | 0xE | 0xF => 8
  | _ => 0

/-- The values of those bits that belong to an instruction; a group of one instruction has the value of no bits, 0. -/
def keyValues : Nat → List Nat
  | 0x0 => [0x0E0, 0x0EE]
  | 0x8 => [0, 1, 2, 3, 4, 5, 6, 7, 0xE]
  | 0xE => [0x9E, 0xA1]
  | 0xF => [0x07, 0x0A, 0x15, 0x18, 0x1E, 0x29, 0x33, 0x55, 0x65]
  | _ => [0]

/-- The low bits of the word are those of an instruction of its group. -/
abbrev KeyListed (op : Word) : Prop := op.toNat % 2 ^ keyWidth (op.toNat / 4096) ∈ keyValues (op.toNat / 4096)

theorem keyListed_iff {op : Word} {g : Nat} (hg : (fieldG op).toNat = g) :
    KeyListed op ↔ op.toNat % 2 ^ keyWidth g ∈ keyValues g := by
  rw [KeyListed, ← fieldG_toNat, hg]

theorem keyListed_iff_fieldN {op : Word} {g : Nat} (hg : (fieldG op).toNat = g) (hw : keyWidth g = 4) :
    KeyListed op ↔ (fieldN op).toNat ∈ keyValues g := by
  rw [keyListed_iff hg, hw, fieldN_toNat]
  rfl

theorem keyListed_iff_fieldNN {op : Word} {g : Nat} (hg : (fieldG op).toNat = g) (hw : keyWidth g = 8) :
    KeyListed op ↔ (fieldNN op).toNat ∈ keyValues g := by
  rw [keyListed_iff hg, hw, fieldNN_toNat]
  rfl

/-- What the decoder can answer on a word: an instruction whose encoding the word is, or, when the low bits are no
instruction's, the word as unknown. -/
inductive DecodeOf (op : Word) : Except DecodeError Instr → Prop where
  | instr (i : Instr) (hwf : i.wellFormed = true) (henc : encodeWord i = op) : DecodeOf op (.ok i)
  | unknown (hkey : ¬KeyListed op) : DecodeOf op (.error (.unknownOpcode op))

theorem decodeGroup0_decodeOf {op : Word} (hg : (fieldG op).toNat = 0x0) : DecodeOf op (decodeGroup0 op) := by
  unfold decodeGroup0
  split_ifs with hcls hret
  · exact .instr .cls rfl hcls.symm
  · exact .instr .ret rfl hret.symm
  · refine .unknown ?_
    have hcls' : op.toNat ≠ 0x0E0 := fun h => hcls (BitVec.eq_of_toNat_eq h)
    have hret' : op.toNat ≠ 0x0EE := fun h => hret (BitVec.eq_of_toNat_eq h)
    rw [keyListed_iff hg]
    rw [fieldG_toNat] at hg
    simp only [keyWidth, keyValues, List.mem_cons, List.not_mem_nil, or_false]
    omega

/-- Groups 0x5 and 0x9: one instruction of format XY with the low digit 0. -/
theorem decodeOf_ite_fieldN {op : Word} {g : BitVec 4} (f : Reg → Reg → Instr) (hg : (fieldG op).toNat = g.toNat)
    (hwf : ∀ x y, (f x y).wellFormed = true) (henc : ∀ x y, encodeWord (f x y) = formatXYN g x y 0x0)
    (hwidth : keyWidth g.toNat = 4) (hvalues : keyValues g.toNat = [0]) :
    DecodeOf op (if fieldN op = 0 then .ok (f (fieldX op) (fieldY op)) else .error (.unknownOpcode op)) := by
  split_ifs with hn
  · exact .instr _ (hwf _ _) ((henc _ _).trans (formatXYN_fields hg (congrArg BitVec.toNat hn)))
  · refine .unknown ?_
    rw [keyListed_iff_fieldN hg hwidth, hvalues, List.mem_singleton]
    exact fun h0 => hn (fieldN_eq_zero h0)

theorem decodeGroup8_decodeOf {op : Word} (hg : (fieldG op).toNat = 0x8) : DecodeOf op (decodeGroup8 op) := by
  unfold decodeGroup8
  split
  case h_10 =>
    refine .unknown ?_
    rw [keyListed_iff_fieldN hg rfl]
    simp only [imp_false] at *
    simp [keyValues, *]
  all_goals next hn => exact .instr _ rfl (formatXYN_fields hg hn)

theorem decodeGroupE_decodeOf {op : Word} (hg : (fieldG op).toNat = 0xE) : DecodeOf op (decodeGroupE op) := by
  unfold decodeGroupE
  split
  case h_3 =>
    refine .unknown ?_
    rw [keyListed_iff_fieldNN hg rfl]
    simp only [imp_false] at *
    simp [keyValues, *]
  all_goals next hnn => exact .instr _ rfl (formatXF_fields hg hnn)

theorem decodeGroupF_decodeOf {op : Word} (hg : (fieldG op).toNat = 0xF) : DecodeOf op (decodeGroupF op) := by
  unfold decodeGroupF
  split
  case h_10 =>
    refine .unknown ?_
    rw [keyListed_iff_fieldNN hg rfl]
    simp only [imp_false] at *
    simp [keyValues, *]
  all_goals next hnn => exact .instr _ rfl (formatXF_fields hg hnn)

/-- The arm `h_k` of the decoder's match is group `k - 1`; the last is never taken. -/
theorem decodeWord_decodeOf (op : Word) : DecodeOf op (decodeWord op) := by
  unfold decodeWord
  split <;> rename_i hg
  case h_1 => exact decodeGroup0_decodeOf hg
  case h_6 => exact decodeOf_ite_fieldN .seReg (g := 0x5) hg (fun _ _ => rfl) (fun _ _ => rfl) rfl rfl
  case h_9 => exact decodeGroup8_decodeOf hg
  case h_10 => exact decodeOf_ite_fieldN .sneReg (g := 0x9) hg (fun _ _ => rfl) (fun _ _ => rfl) rfl rfl
  case h_15 => exact decodeGroupE_decodeOf hg
  case h_16 => exact decodeGroupF_decodeOf hg
  case h_2 | h_3 | h_11 | h_12 => exact .instr _ rfl (formatA_fields hg)
  case h_4 | h_5 | h_7 | h_8 | h_13 => exact .instr _ rfl (formatXB_fields hg)
  case h_14 =>
    have hn := (fieldN op).isLt
    exact .instr _ (decide_eq_true hn) (formatXYN_fields hg (Nat.mod_eq_of_lt hn).symm)
  case h_17 =>
    have hlt := (fieldG op).isLt
    simp only [imp_false] at *
    omega

theorem encodeWord_of_decodeWord {op : Word} {i : Instr} (h : decodeWord op = .ok i) :
    i.wellFormed = true ∧ encodeWord i = op := by
  have hd := decodeWord_decodeOf op
  rw [h] at hd
  obtain ⟨_, hwf, henc⟩ := hd
  exact ⟨hwf, henc⟩

/-- A word decodes, or it is unknown and its low bits are no instruction's. -/
theorem decodeWord_cases (op : Word) : (∃ i, decodeWord op = .ok i) ∨
    (decodeWord op = .error (.unknownOpcode op) ∧ ¬KeyListed op) := by
  have hd := decodeWord_decodeOf op
  generalize decodeWord op = d at hd ⊢
  cases hd with
  | instr i _ _ => exact .inl ⟨i, rfl⟩
  | unknown hkey => exact .inr ⟨rfl, hkey⟩

/-! ### The rows of the opcode table (R74) -/

/-- The instruction's word matches the row of its mnemonic, for each of the 34. -/
theorem opcodeRow_encodeWord (i : Instr) :
    ∃ row ∈ opcodeTable, row.mnemonic = i.mnemonic ∧ row.Matches (encodeWord i) :=
  open Laws.OpcodeRow in
  match i with
  | .cls => cls | .ret => ret | .jp _ => jp _ | .call _ => call _ | .seImm _ _ => seImm _ _ | .sneImm _ _ => sneImm _ _
  | .seReg _ _ => seReg _ _ | .ldImm _ _ => ldImm _ _ | .addImm _ _ => addImm _ _ | .ldReg _ _ => ldReg _ _
  | .orReg _ _ => orReg _ _ | .andReg _ _ => andReg _ _ | .xorReg _ _ => xorReg _ _ | .addReg _ _ => addReg _ _
  | .sub _ _ => sub _ _ | .shr _ _ => shr _ _ | .subn _ _ => subn _ _ | .shl _ _ => shl _ _ | .sneReg _ _ => sneReg _ _
  | .ldIdx _ => ldIdx _ | .jpV0 _ => jpV0 _ | .rnd _ _ => rnd _ _ | .drw _ _ _ => drw _ _ _ | .skp _ => skp _
  | .sknp _ => sknp _ | .ldVxDt _ => ldVxDt _ | .ldVxK _ => ldVxK _ | .ldDtVx _ => ldDtVx _ | .ldStVx _ => ldStVx _
  | .addIdx _ => addIdx _ | .ldF _ => ldF _ | .ldB _ => ldB _ | .stRegs _ => stRegs _ | .ldRegs _ => ldRegs _

theorem opcodeTable_mnemonic_nodup : (opcodeTable.map OpRow.mnemonic).Nodup := by decide

/-- Two rows ask for different values of some bit that both masks keep. -/
abbrev PatternsDiffer (r q : OpRow) : Prop := r.pattern &&& q.mask ≠ q.pattern &&& r.mask

theorem opcodeTable_pairwise_patternsDiffer : opcodeTable.Pairwise PatternsDiffer := by decide

theorem not_matches_both {r q : OpRow} (h : PatternsDiffer r q) (op : Word) :
    ¬(r.Matches op ∧ q.Matches op) := by
  rintro ⟨hr, hq⟩
  refine h ?_
  rw [← hr, ← hq, BitVec.and_assoc, BitVec.and_assoc, BitVec.and_comm r.mask]

theorem eq_of_matches_both {r q : OpRow} (hr : r ∈ opcodeTable) (hq : q ∈ opcodeTable) {op : Word} (hrop : r.Matches op)
    (hqop : q.Matches op) : r = q := by
  have hsymm : Std.Symm PatternsDiffer := ⟨fun _ _ => Ne.symm⟩
  by_contra hne
  exact not_matches_both (opcodeTable_pairwise_patternsDiffer.forall hr hq hne) op ⟨hrop, hqop⟩

/-- Every row's mask keeps the group digit and the low bits the decoder looks at, and its pattern is an instruction's. -/
theorem opcodeTable_keeps_key : ∀ r ∈ opcodeTable, r.mask.extractLsb' 12 4 = BitVec.allOnes 4 ∧
    r.mask.extractLsb' 0 (keyWidth (r.pattern.toNat / 4096)) = BitVec.allOnes _ ∧ KeyListed r.pattern := by decide

/-- Bits that a row's mask keeps are in a matching word what they are in the row's pattern. -/
theorem extract_eq_of_matches {r : OpRow} {op : Word} (h : r.Matches op) {start len : Nat}
    (hm : r.mask.extractLsb' start len = BitVec.allOnes len) :
    op.extractLsb' start len = r.pattern.extractLsb' start len := by
  rw [← h, BitVec.extractLsb'_and, hm, BitVec.and_allOnes]

theorem keyListed_of_matches {r : OpRow} (hr : r ∈ opcodeTable) {op : Word} (h : r.Matches op) : KeyListed op := by
  obtain ⟨hgroup, hlow, hkey⟩ := opcodeTable_keeps_key r hr
  have hg : op.toNat / 4096 = r.pattern.toNat / 4096 := by
    rw [← fieldG_toNat, ← fieldG_toNat]
    exact congrArg BitVec.toNat (extract_eq_of_matches h hgroup)
  have hl := congrArg BitVec.toNat (extract_eq_of_matches h hlow)
  simp only [BitVec.extractLsb'_toNat, Nat.shiftRight_zero] at hl
  rw [KeyListed, hg, hl]
  exact hkey

/-- A word decodes exactly when its low bits are those of an instruction of its group. -/
theorem keyListed_iff_decodes {op : Word} : KeyListed op ↔ ∃ i, decodeWord op = .ok i := by
  constructor
  · exact fun hkey => (decodeWord_cases op).resolve_right fun h => h.2 hkey
  · rintro ⟨i, hi⟩
    obtain ⟨row, hmem, -, hmatch⟩ := opcodeRow_encodeWord i
    rw [(encodeWord_of_decodeWord hi).2] at hmatch
    exact keyListed_of_matches hmem hmatch

/-! ### The unknown words and their number (R76) -/

theorem decodes_or_unknown (op : Word) : (∃ i, decodeWord op = .ok i) ∨ decodeWord op = .error (.unknownOpcode op) :=
  (decodeWord_cases op).imp_right And.left

theorem unknown_iff_not_keyListed {op : Word} : decodeWord op = .error (.unknownOpcode op) ↔ ¬KeyListed op := by
  rw [keyListed_iff_decodes]
  constructor
  · rintro h ⟨i, hi⟩
    exact nomatch h.symm.trans hi
  · exact (decodes_or_unknown op).resolve_left

theorem unknownWord_iff {w : Nat} (hw : w < 65536) :
    unknownWord w = true ↔ w % 2 ^ keyWidth (w / 4096) ∉ keyValues (w / 4096) := by
  have hkey := keyListed_iff_decodes (op := BitVec.ofNat 16 w)
  rw [KeyListed, ofNat16_toNat hw] at hkey
  rw [hkey, unknownWord]
  split <;> simp [*]

/-- The low bits that are no instruction's, group by group. -/
theorem key_notMem_iff {g : Nat} (hg : g < 16) (w : Nat) : w % 2 ^ keyWidth g ∉ keyValues g ↔
    (g = 0x0 ∧ w % 4096 ≠ 0x0E0 ∧ w % 4096 ≠ 0x0EE) ∨ (g = 0x5 ∧ w % 16 ≠ 0) ∨
    (g = 0x8 ∧ w % 16 ∈ [8, 9, 0xA, 0xB, 0xC, 0xD, 0xF]) ∨ (g = 0x9 ∧ w % 16 ≠ 0) ∨
    (g = 0xE ∧ w % 256 ≠ 0x9E ∧ w % 256 ≠ 0xA1) ∨
    (g = 0xF ∧ w % 256 ∉ [0x07, 0x0A, 0x15, 0x18, 0x1E, 0x29, 0x33, 0x55, 0x65]) := by
  interval_cases g
  all_goals
    simp only [keyWidth, keyValues, List.mem_cons, List.not_mem_nil, or_false, true_and]
    omega

/-- How often a property of the remainder modulo `m` holds below `m * k`. -/
theorem count_mod_mul (p : Nat → Prop) [DecidablePred p] (m k : Nat) :
    Nat.count (fun n => p (n % m)) (m * k) = k * Nat.count p m := by
  induction k with
  | zero => simp
  | succ k ih =>
    have hlast : Nat.count (fun n => p ((m * k + n) % m)) m = Nat.count p m :=
      List.countP_congr fun n hn => by simp only [Nat.mul_add_mod, Nat.mod_eq_of_lt (List.mem_range.1 hn)]
    rw [Nat.mul_succ, Nat.count_add, ih, hlast, Nat.succ_mul]

theorem count_notMem {l : List Nat} (hl : l.Nodup) {m : Nat} (hlt : ∀ a ∈ l, a < m) :
    Nat.count (fun n => n ∉ l) m = m - l.length := by
  have hsub : l.toFinset ⊆ Finset.range m := fun a ha => Finset.mem_range.2 (hlt a (List.mem_toFinset.1 ha))
  have hfilter : {n ∈ Finset.range m | n ∉ l} = Finset.range m \ l.toFinset := by
    ext n; simp
  rw [Nat.count_eq_card_filter_range, hfilter, Finset.card_sdiff_of_subset hsub, Finset.card_range,
    List.toFinset_card_of_nodup hl]

theorem keyValues_nodup : ∀ g < 16, (keyValues g).Nodup := by decide

theorem keyValues_lt : ∀ g < 16, ∀ a ∈ keyValues g, a < 2 ^ keyWidth g := by decide

theorem keyWidth_le : ∀ g < 16, keyWidth g ≤ 12 := by decide

theorem unknownInGroup_eq {g : Nat} (hg : g < 16) :
    unknownInGroup g = 2 ^ (12 - keyWidth g) * (2 ^ keyWidth g - (keyValues g).length) := by
  have hsplit : 2 ^ keyWidth g * 2 ^ (12 - keyWidth g) = 4096 := by
    rw [← Nat.pow_add, Nat.add_sub_cancel' (keyWidth_le g hg)]
  have hword : ∀ n < 4096, (unknownWord (g * 4096 + n) = true ↔ n % 2 ^ keyWidth g ∉ keyValues g) := by
    intro n hn
    have hlow : (g * 4096 + n) % 2 ^ keyWidth g = n % 2 ^ keyWidth g := by
      rw [← hsplit, Nat.mul_left_comm, Nat.mul_add_mod]
    have hgroup : (g * 4096 + n) / 4096 = g := by omega
    rw [unknownWord_iff (by omega), hgroup, hlow]
  calc unknownInGroup g
      = Nat.count (fun n => n % 2 ^ keyWidth g ∉ keyValues g) (2 ^ keyWidth g * 2 ^ (12 - keyWidth g)) := by
        rw [hsplit]
        refine List.countP_congr fun n hn => ?_
        rw [hword n (List.mem_range.1 hn), decide_eq_true_eq]
    _ = 2 ^ (12 - keyWidth g) * (2 ^ keyWidth g - (keyValues g).length) := by
        rw [count_mod_mul (fun n => n ∉ keyValues g), count_notMem (keyValues_nodup g hg) (keyValues_lt g hg)]

theorem unknownInGroup_table : (List.range 16).map unknownInGroup =
    [4094, 0, 0, 0, 0, 3840, 0, 0, 1792, 3840, 0, 0, 0, 0, 4064, 3952] := by
  rw [List.map_congr_left fun g hg => unknownInGroup_eq (List.mem_range.1 hg)]
  decide

/-! ### The obligations -/

/-- Settles O10: the bytes of a word decode as the word, and every encoded word is a spelling of its instruction. -/
theorem decodeOfEncodeIsTheInstruction : Obligations.DecodeOfEncodeIsTheInstruction := by
  intro i rest hwf
  rw [encode, decode_bytesOfWord, decodeWord_encodeWord i hwf]

/-- Settles O11: the decoded word is its instruction's encoding, and its bytes are the list's first two. -/
theorem encodeOfDecodeIsTheBytes : Obligations.EncodeOfDecodeIsTheBytes := by
  intro bytes rest i h
  match bytes, h with
  | hi :: lo :: tail, h =>
    change decode ([hi, lo] ++ tail) = _ at h
    rw [← bytesOfWord_join, decode_bytesOfWord] at h
    cases hd : decodeWord (wordOfBytes hi lo) with
    | error e => rw [hd] at h; exact nomatch h
    | ok j =>
      rw [hd] at h
      obtain ⟨rfl, rfl⟩ := Prod.mk.inj (Except.ok.inj h)
      obtain ⟨hwf, henc⟩ := encodeWord_of_decodeWord hd
      exact ⟨hwf, by rw [encode, henc, bytesOfWord_join]; rfl⟩

/-- Settles O12: the row of a decoded word's mnemonic matches it, and no other row does. -/
theorem decoderFollowsOpcodeTable : Obligations.DecoderFollowsOpcodeTable := by
  have hrow : ∀ op i, decodeWord op = .ok i → ∃ row ∈ opcodeTable, row.mnemonic = i.mnemonic ∧ row.Matches op :=
    fun op i h => (encodeWord_of_decodeWord h).2 ▸ opcodeRow_encodeWord i
  refine ⟨rfl, fun row hmem op => ⟨fun hmatch => ?_, ?_⟩, hrow, opcodeTable_pairwise_patternsDiffer.imp not_matches_both⟩
  · obtain ⟨i, hi⟩ := keyListed_iff_decodes.1 (keyListed_of_matches hmem hmatch)
    obtain ⟨q, hq, hname, hqmatch⟩ := hrow op i hi
    exact ⟨i, hi, eq_of_matches_both hmem hq hmatch hqmatch ▸ hname.symm⟩
  · rintro ⟨i, hi, hname⟩
    obtain ⟨q, hq, hqname, hqmatch⟩ := hrow op i hi
    have heq : q = row := List.inj_on_of_nodup_map opcodeTable_mnemonic_nodup hq hmem (hqname.trans hname)
    exact heq ▸ hqmatch

/-- Settles O13: the groups of R76 are those whose low bits can be none of an instruction's; each value of the low bits
stands for equally many words of its group. -/
theorem unknownWordsAreTheListedGroups : Obligations.UnknownWordsAreTheListedGroups := by
  refine ⟨fun op => ?_, decodes_or_unknown, unknownInGroup_table, by rw [unknownInGroup_table]; rfl⟩
  have hg : op.toNat / 4096 < 16 := Nat.div_lt_of_lt_mul op.isLt
  exact unknown_iff_not_keyListed.trans (key_notMem_iff hg op.toNat)

/-- Settles O14: each word is a spelling of R78. -/
theorem wordsOfTheSpecDecode : Obligations.WordsOfTheSpecDecode :=
  ⟨spells_cls, spells_jp 0xABC, spells_sneImm 0xA 0x42, spells_subn 0xA 0xB, spells_ldIdx 0x2F0, spells_drw 0 1 15 (by decide),
    spells_sknp 1, spells_ldVxK 3⟩

end Sys2Proof.Machine
end

section
/-! Family `40_step.md`. What the step fetches and runs; that it answers from every state; `PC` and `FSM` after it; its fixed
points; the parts of the state it does not read. -/

namespace Sys2Proof.Machine

/-! ### What the step runs (R90, R91) -/

theorem step_of_decodeWord {s : State} {i : Instr} (h : decodeWord s.fetchWord = .ok i) : step s = exec i s := by
  rw [step, h]

theorem step_of_unknown {s : State} (h : ∀ i, decodeWord s.fetchWord ≠ .ok i) :
    step s = .next (s.reportUnknown s.fetchWord) := by
  obtain ⟨i, hi, -⟩ | ⟨_, -, hs⟩ := step_cases s
  · exact absurd hi (h i)
  · exact hs

/-- Two bytes that decode to an instruction are the bytes of a word that does. -/
theorem decodeWord_of_decode {hi lo : Byte} {i : Instr} (h : decode [hi, lo] = .ok (i, [])) :
    decodeWord (wordOfBytes hi lo) = .ok i := by
  obtain ⟨hwf, hbytes⟩ := encodeOfDecodeIsTheBytes _ _ _ h
  rw [List.append_nil, encode] at hbytes
  obtain ⟨rfl, hlo⟩ := List.cons.inj hbytes
  obtain ⟨rfl, -⟩ := List.cons.inj hlo
  rw [wordOfBytes_split, decodeWord_encodeWord i hwf]

/-- The word stored at `PC` is the word the step fetches, also where `PC + 1` wraps. -/
theorem State.fetchWord_withFetchWord (s : State) (op : Word) : (s.withFetchWord 16 op.toNat).fetchWord = op := by
  have hword : tableWord 16 op.toNat = op := by
    rw [tableWord, Nat.mod_eq_of_lt op.isLt, BitVec.ofNat_toNat, BitVec.setWidth_eq]
  have hbyte := fun k => State.memRead_memWriteList_at s s.pc.toNat k (bytesOfWord op) (by decide : 2 ≤ 4096)
  rw [State.withFetchWord, hword, State.fetchWord, State.memWriteList_pc]
  exact (congrArg₂ wordOfBytes (hbyte 0 Nat.zero_lt_two) (hbyte 1 Nat.one_lt_two)).trans (wordOfBytes_split op)

/-- Every step answers (R94). -/
theorem step_answers (s : State) : ∃ t, step s = .next t := by
  obtain ⟨i, -, hs⟩ | ⟨_, -, hs⟩ := step_cases s
  · obtain ⟨t, ht, -⟩ := exec_frame i s
    exact ⟨t, hs.trans ht⟩
  · exact ⟨_, hs⟩

/-! ### `PC` after an instruction (R92) -/

theorem SkippedIf.pc_cases {c : Prop} {s t : State} (h : SkippedIf c s t) :
    (c ∧ t.pc.toNat = (s.pc.toNat + 4) % 65536) ∨ (¬c ∧ t.pc.toNat = (s.pc.toNat + 2) % 65536) := by
  by_cases hc : c
  · exact .inl ⟨hc, (h.1 hc).1⟩
  · exact .inr ⟨hc, (h.2 hc).1⟩

/-- The sum of a byte and an address as `BNNN` forms it (`41_control.md` R103). -/
theorem jpV0_target_toNat (b : Byte) (nnn : BitVec 12) :
    (b.setWidth 16 + addrOperand nnn).toNat = (b.toNat + nnn.toNat) % 65536 := by
  have hb : b.toNat < 2 ^ 16 := b.isLt.trans (by decide)
  rw [BitVec.toNat_add, addrOperand_toNat, BitVec.toNat_setWidth, Nat.mod_eq_of_lt hb]

/-- Every instruction answers, with `PC` as its row of R92 has it and the diagnostic of that row. -/
theorem exec_pcAfter (i : Instr) (s : State) : ∃ t, exec i s = .next t ∧ PcAfter i s t.pc.toNat ∧
    t.diag.map Diagnostic.kind = instrReports i s := by
  cases i with
  | ret =>
    obtain ⟨hpos, he⟩ | ⟨hzero, he⟩ := execRet_cases s
    · exact ⟨_, he, .inl ⟨hpos, rfl⟩, (if_neg hpos.ne').symm⟩
    · exact ⟨_, he, .inr ⟨hzero, pc_add_two s.pc⟩, (if_pos hzero).symm⟩
  | call nnn =>
    obtain ⟨hlt, he⟩ | ⟨hfull, he⟩ := execCall_cases nnn s
    · exact ⟨_, he, .inl ⟨hlt, addrOperand_toNat nnn⟩, (if_neg hlt.ne).symm⟩
    · exact ⟨_, he, .inr ⟨hfull, pc_add_two s.pc⟩, (if_pos hfull).symm⟩
  | ldVxK x =>
    obtain ⟨hnone, he⟩ | ⟨k, ⟨hk, -⟩, he⟩ := execLdVxK_cases x s
    · exact ⟨_, he, .inl ⟨hnone, rfl⟩, rfl⟩
    · exact ⟨_, he, .inr ⟨⟨k, hk⟩, pc_add_two s.pc⟩, rfl⟩
  | jp nnn => exact ⟨_, rfl, addrOperand_toNat nnn, rfl⟩
  | jpV0 nnn => exact ⟨_, rfl, jpV0_target_toNat _ nnn, rfl⟩
  | seImm _ _ | seReg _ _ => exact ⟨_, rfl, (skippedIf_skipIf beq_iff_eq).pc_cases, rfl⟩
  | sneImm _ _ | sneReg _ _ => exact ⟨_, rfl, (skippedIf_skipIf bne_iff_ne).pc_cases, rfl⟩
  | skp x => exact ⟨_, rfl, (skippedIf_skipIf Iff.rfl).pc_cases, rfl⟩
  | sknp x => exact ⟨_, rfl, (skippedIf_skipIf (Bool.not_eq_true' _).to_iff).pc_cases, rfl⟩
  | ldB x => exact ⟨_, rfl, (advanced_of_pc (State.memWriteList_pc s _ _)).1, rfl⟩
  | stRegs x => exact ⟨_, rfl, (advanced_of_pc (u := State.setI _ _) (State.memWriteList_pc s _ _)).1, rfl⟩
  | _ => exact ⟨_, rfl, pc_add_two s.pc, rfl⟩

/-! ### `FSM` after a step (R96) -/

theorem State.not_anyKey_iff (s : State) : ¬s.AnyKey ↔ ∀ k : Fin 16, s.key[k] = false := by
  simp only [State.AnyKey, not_exists, Bool.not_eq_true]

/-- The instruction `i` is `FX0A` and no key is pressed in `s`. -/
def WaitsForKey (i : Instr) (s : State) : Prop := (∃ x, i = .ldVxK x) ∧ ∀ k : Fin 16, s.key[k] = false

/-- With no key pressed `FX0A` waits. -/
theorem exec_of_waitsForKey {i : Instr} {s : State} (h : WaitsForKey i s) : exec i s = .next s.await := by
  obtain ⟨⟨x, rfl⟩, hkeys⟩ := h
  obtain ⟨-, he⟩ | ⟨k, ⟨hk, -⟩, -⟩ := execLdVxK_cases x s
  · exact he
  · exact absurd ⟨k, hk⟩ (s.not_anyKey_iff.2 hkeys)

/-- Every other instruction leaves `FSM` at RUNNING. -/
theorem exec_running_of_not_waitsForKey {i : Instr} {s : State} (h : ¬WaitsForKey i s) :
    ∃ t, exec i s = .next t ∧ t.fsm = .running := by
  cases i with
  | ret => obtain ⟨_, he⟩ | ⟨-, he⟩ := execRet_cases s <;> exact ⟨_, he, rfl⟩
  | call nnn => obtain ⟨_, he⟩ | ⟨-, he⟩ := execCall_cases nnn s <;> exact ⟨_, he, rfl⟩
  | ldVxK x =>
    obtain ⟨hnone, -⟩ | ⟨_, -, he⟩ := execLdVxK_cases x s
    · exact absurd ⟨⟨x, rfl⟩, s.not_anyKey_iff.1 hnone⟩ h
    · exact ⟨_, he, rfl⟩
  | _ => exact ⟨_, rfl, rfl⟩

/-- A step waits, as it executed `FX0A` with no key pressed, or leaves `FSM` at RUNNING. -/
theorem step_waits_or_runs (s : State) :
    ((∃ i, decodeWord s.fetchWord = .ok i ∧ WaitsForKey i s) ∧ step s = .next s.await) ∨
      ((∀ i, decodeWord s.fetchWord = .ok i → ¬WaitsForKey i s) ∧ ∃ t, step s = .next t ∧ t.fsm = .running) := by
  obtain ⟨i, hi, hs⟩ | ⟨e, he, hs⟩ := step_cases s
  · by_cases hw : WaitsForKey i s
    · exact .inl ⟨⟨i, hi, hw⟩, hs.trans (exec_of_waitsForKey hw)⟩
    · exact .inr ⟨fun j hj => Except.ok.inj (hi.symm.trans hj) ▸ hw, hs ▸ exec_running_of_not_waitsForKey hw⟩
  · exact .inr ⟨fun j hj => (nomatch he.symm.trans hj), _, hs, rfl⟩

theorem State.sameExcept_await (s : State) : SameExcept [.fsm, .diag] s s.await := sameExcept_of_overlay rfl

/-! ### What the step does not read (R93)

Two states that agree but for some parts are one state with those parts, and the list that holds its memory, replaced. -/

theorem ite_contains_eq {α : Type} {ps : List Part} {p : Part} {a b : α} (h : p ∉ ps → a = b) :
    (if ps.contains p then a else b) = a := by
  by_cases hp : p ∈ ps
  · exact if_pos (List.contains_iff_mem.2 hp)
  · rw [h hp, ite_self]

/-- States that agree but for some parts are equal but for those parts and the list of memory's cells. -/
theorem overlay_mem_of_sameExcept {ps : List Part} {s t : State} (h : SameExcept ps s t) :
    State.overlay (.mem :: ps) t s = t := by
  have same : ∀ p, p ∉ .mem :: ps → p.Same s t := fun p hp => h p (List.not_mem_of_not_mem_cons hp)
  simp only [State.overlay,
    ite_contains_eq fun hp => State.v_ext (same .v hp), ite_contains_eq (same .pc), ite_contains_eq (same .i),
    ite_contains_eq fun hp => Vector.ext fun k hk => same .stack hp ⟨k, hk⟩, ite_contains_eq (same .sp),
    ite_contains_eq (same .dt), ite_contains_eq (same .st), ite_contains_eq fun hp => Frame.ext_of_pixel (same .fb hp),
    ite_contains_eq (same .dirty), ite_contains_eq fun hp => Vector.ext fun k hk => same .key hp ⟨k, hk⟩,
    ite_contains_eq (same .fsm), ite_contains_eq (same .diag), ite_contains_eq (same .reported),
    ite_contains_eq (same .draws)]
  rfl

/-- The converse, where memory reads the same. -/
theorem sameExcept_of_overlay_mem {ps : List Part} {s t : State} (hmem : t.memRead = s.memRead)
    (h : State.overlay (.mem :: ps) t s = t) : SameExcept ps s t := by
  intro p hp
  by_cases hpm : p = .mem
  · exact hpm ▸ congrFun hmem
  · exact sameExcept_of_overlay h p (List.not_mem_cons_of_ne_of_not_mem hpm hp)

/-- Writing the same bytes to memories that read alike leaves memories that read alike. -/
theorem State.memRead_memWriteList_congr {s u : State} (h : u.memRead = s.memRead) (a : Nat) (bs : List Byte) :
    (u.memWriteList a bs).memRead = (s.memWriteList a bs).memRead := by
  induction bs generalizing s u a with
  | nil => exact h
  | cons b bs ih =>
    refine ih (funext fun c => ?_) (a + 1)
    rw [State.memRead_memWrite, State.memRead_memWrite, h]

theorem execLdVxK_of_none {x : Reg} {s : State} (h : s.leastKey = none) : execLdVxK x s = .next s.await := by
  rw [execLdVxK, h]

theorem execLdVxK_of_some {x k : Reg} {s : State} (h : s.leastKey = some k) :
    execLdVxK x s = .next (s.setReg x (BitVec.ofNat 8 k.val)).advance := by
  rw [execLdVxK, h]

/-- `s` with the parts that a step does not read, and the list that holds its memory, taken from `u`. -/
abbrev State.withUnreadOf (s u : State) : State := State.overlay [.mem, .fsm, .dirty, .st, .stack, .diag, .reported] u s

/-- Both outcomes are next states, and these agree but for what a step leaves of the parts it does not read. -/
def NextAlike (a b : Host.Outcome State Fault Refusal) : Prop :=
  ∃ t w, a = .next t ∧ b = .next w ∧ SameExcept [.dirty, .st, .stack, .reported] t w

theorem NextAlike.of_overlay {a b : Host.Outcome State Fault Refusal} {t w : State} (ha : a = .next t) (hb : b = .next w)
    (hm : w.memRead = t.memRead) (h : State.overlay [.mem, .dirty, .st, .stack, .reported] w t = w) : NextAlike a b :=
  ⟨t, w, ha, hb, sameExcept_of_overlay_mem hm h⟩

section
variable {s u : State} (hmem : (s.withUnreadOf u).memRead = s.memRead)
include hmem

theorem State.fetchWord_withUnreadOf : (s.withUnreadOf u).fetchWord = s.fetchWord := by
  rw [State.fetchWord, hmem]
  rfl

variable (htop : ∀ h : 0 < s.sp.val, (s.withUnreadOf u).top h = s.top h)
include htop

/-- Every instruction gives next states that agree: its operands are the same in both, by definition where they are fields or
registers, and by the hypotheses where they are read from memory or popped. -/
theorem exec_nextAlike (i : Instr) : NextAlike (exec i s) (exec i (s.withUnreadOf u)) := by
  cases i with
  | ret =>
    by_cases hpos : 0 < s.sp.val
    · exact .of_overlay (dif_pos hpos) (dif_pos hpos) hmem (by rw [htop hpos]; rfl)
    · exact .of_overlay (dif_neg hpos) (dif_neg hpos) hmem rfl
  | call nnn =>
    by_cases hlt : s.sp.val < 16
    · exact .of_overlay (dif_pos hlt) (dif_pos hlt) hmem rfl
    · exact .of_overlay (dif_neg hlt) (dif_neg hlt) hmem rfl
  | ldVxK x =>
    cases hkey : s.leastKey with
    | none => exact .of_overlay (execLdVxK_of_none hkey) (execLdVxK_of_none hkey) hmem rfl
    | some k => exact .of_overlay (execLdVxK_of_some hkey) (execLdVxK_of_some hkey) hmem rfl
  | drw x y n =>
    have hrow : (s.withUnreadOf u).spriteRow = s.spriteRow := funext fun r => congrFun hmem _
    exact .of_overlay rfl rfl hmem (by rw [hrow]; rfl)
  | ldRegs x => exact .of_overlay rfl rfl hmem (by rw [hmem]; rfl)
  | ldB x | stRegs x =>
    refine .of_overlay rfl rfl (State.memRead_memWriteList_congr hmem _ _) ?_
    rw [State.memWriteList_eq, State.memWriteList_eq s]
    rfl
  | _ => exact .of_overlay rfl rfl hmem rfl

/-- So does every step. -/
theorem step_nextAlike : NextAlike (step s) (step (s.withUnreadOf u)) := by
  have hfetch := State.fetchWord_withUnreadOf hmem
  obtain ⟨i, hi, hs⟩ | ⟨e, he, hs⟩ := step_cases s
  · rw [hs, step_of_decodeWord (hfetch ▸ hi)]
    exact exec_nextAlike hmem htop i
  · have hunknown : ∀ i, decodeWord (s.withUnreadOf u).fetchWord ≠ .ok i := by rw [hfetch, he]; exact fun _ => nofun
    exact .of_overlay hs (step_of_unknown hunknown) hmem (by rw [hfetch]; rfl)

end

/-! ### The obligations -/

/-- Settles O18: the stored word is fetched, and the word of a well-formed instruction decodes to it. -/
theorem storedInstructionIsRun : Obligations.StoredInstructionIsRun := by
  intro s i hwf
  apply step_of_decodeWord
  rw [State.fetchWord_withFetchWord, decodeWord_encodeWord i hwf]

/-- Settles O20: every instruction answers, and a step is an instruction or a report. -/
theorem stepIsTotal : Obligations.StepIsTotal := by
  refine ⟨step_answers, fun i s => ?_⟩
  obtain ⟨t, ht, -⟩ := exec_frame i s
  exact ⟨t, ht⟩

/-- Settles O21: the table row by row, and the report of an unknown word. -/
theorem programCounterTable : Obligations.ProgramCounterTable :=
  ⟨exec_pcAfter, fun s h => ⟨_, step_of_unknown h, pc_add_two s.pc, rfl⟩⟩

/-- Settles O22: a step either waits or leaves `FSM` at RUNNING. -/
theorem dispatchStateAfterStep : Obligations.DispatchStateAfterStep := by
  refine ⟨fun s t ht => ?_, fun s t ht => Host.Outcome.next.inj ht ▸ rfl⟩
  obtain ⟨⟨i, hi, ⟨x, rfl⟩, hkeys⟩, hs⟩ | ⟨hnot, hruns⟩ := step_waits_or_runs s
  · obtain rfl := Host.Outcome.next.inj (hs.symm.trans ht)
    exact ⟨⟨fun _ => ⟨⟨x, hi⟩, hkeys⟩, fun _ => rfl⟩, fun _ => s.sameExcept_await⟩
  · have hrun : t.fsm = .running := of_eq_next ht hruns
    have hne : t.fsm ≠ .awaitingKey := by rw [hrun]; exact nofun
    have hnowait : ¬((∃ x, decodeWord s.fetchWord = .ok (.ldVxK x)) ∧ ∀ k : Fin 16, s.key[k] = false) :=
      fun ⟨⟨x, hx⟩, hkeys⟩ => hnot _ hx ⟨⟨x, rfl⟩, hkeys⟩
    exact ⟨iff_of_false hne hnowait, fun h => absurd h hne⟩

/-- Settles O25: the jump writes `PC` and `FSM` with what they hold; waiting changes nothing that the fetch or the wait reads,
so the second step waits from where the first did. -/
theorem selfJumpAndKeyWaitStay : Obligations.SelfJumpAndKeyWaitStay := by
  refine fun s => ⟨fun nnn hd hpc hfsm => ⟨_, step_of_decodeWord hd, ?jump⟩, fun x hd hkeys => ?wait⟩
  case jump =>
    have hself : addrOperand nnn = s.pc := BitVec.eq_of_toNat_eq ((addrOperand_toNat nnn).trans hpc.symm)
    have hretire : State.overlay [.diag] (s.retire s.pc) s = s.retire s.pc := by rw [State.overlay, hfsm]; rfl
    exact hself ▸ sameExcept_of_overlay hretire
  case wait =>
    have hstep : ∀ t : State, decodeWord t.fetchWord = .ok (.ldVxK x) → (∀ k : Fin 16, t.key[k] = false) →
        step t = .next t.await := fun t hd hkeys =>
      (step_of_decodeWord hd).trans (exec_of_waitsForKey ⟨⟨x, rfl⟩, hkeys⟩)
    exact ⟨s.await, hstep s hd hkeys, s.sameExcept_await, hstep s.await hd hkeys⟩

/-- Settles O28: the second state is the first with the unread parts replaced, and every instruction treats them alike. -/
theorem stepReadsNoStatus : Obligations.StepReadsNoStatus := by
  intro s u hsame hslots
  have hu : s.withUnreadOf u = u := overlay_mem_of_sameExcept hsame
  have hmem : (s.withUnreadOf u).memRead = s.memRead := hu ▸ funext (hsame .mem (by decide))
  have htop : ∀ h : 0 < s.sp.val, (s.withUnreadOf u).top h = s.top h := fun h =>
    hslots ⟨s.sp.val - 1, by have := s.sp.isLt; omega⟩ (Nat.sub_add_cancel h)
  exact hu ▸ step_nextAlike hmem htop

/-- Settles O16: the word of two bytes as a number, each byte read by the cell it is in. -/
theorem fetchIsBigEndian : Obligations.FetchIsBigEndian := by
  intro s
  rw [State.fetchWord, wordOfBytes_toNat, ← State.memRead_memIndex s s.pc.toNat,
    ← State.memRead_memIndex s (s.pc.toNat + 1)]
  rfl

/-- Settles O17: the two bytes decode as the fetched word does. -/
theorem stepRunsDecodedInstruction : Obligations.StepRunsDecodedInstruction := by
  intro s i h
  exact step_of_decodeWord (decodeWord_of_decode h)

end Sys2Proof.Machine
end

section
/-! Family `41_control.md`. The rules of the call stack, how a step ends by a jump or a report, and the four control transfers
built from them. -/

namespace Sys2Proof.Machine

/-! ### The call stack (R100, R102) -/

/-- The top slot is the one whose index is the stack pointer after the pop. -/
theorem State.top_eq {s : State} {k : Fin 16} (hk : s.sp.val = k.val + 1) (h : 0 < s.sp.val) : s.top h = s.stack[k] := by
  simp only [State.top, hk]
  rfl

/-- The slots after a push, by index. -/
theorem State.stack_push (s : State) (w : Word) (h : s.sp.val < 16) (j : Fin 16) :
    (s.push w h).stack[j] = if j.val = s.sp.val then w else s.stack[j] := by
  simp only [State.push_stack, Fin.getElem_fin, Vector.getElem_set, eq_comm]

/-- The word pushed is the top of the stack, also after the jump of the call. -/
theorem State.top_retire_push (s : State) (w n : Word) (h : s.sp.val < 16) :
    ((s.push w h).retire n).top (Nat.succ_pos s.sp.val) = w :=
  (State.top_eq (k := ⟨s.sp.val, h⟩) rfl _).trans ((s.stack_push w h ⟨s.sp.val, h⟩).trans (if_pos rfl))

/-! ### How a control transfer ends -/

theorem endsAt_retire (s : State) {w : Word} {n : Nat} (h : w.toNat = n) : EndsAt n (s.retire w) := ⟨h, rfl, rfl⟩

/-- A report is the reported condition, and nothing else of the state (`60_exceptions.md` R174). -/
theorem reported_report (kind : DiagKind) (op : Word) (s : State) : Reported kind op s (s.report kind op) :=
  ⟨rfl, pc_add_two s.pc, rfl, sameExcept_of_overlay rfl⟩

/-! ### The return and the call, where the stack allows them and where it does not -/

theorem exec_ret_of_pos {s : State} (h : 0 < s.sp.val) : exec .ret s = .next (s.pop.retire (s.top h)) := by
  obtain ⟨_, he⟩ | ⟨hzero, -⟩ := execRet_cases s
  · exact he
  · exact absurd hzero h.ne'

theorem exec_ret_of_empty {s : State} (h : s.sp.val = 0) : exec .ret s = .next (s.report .stackUnderflow 0x00EE) := by
  obtain ⟨hpos, -⟩ | ⟨-, he⟩ := execRet_cases s
  · exact absurd h hpos.ne'
  · exact he

theorem exec_call_of_lt (nnn : BitVec 12) {s : State} (h : s.sp.val < 16) :
    exec (.call nnn) s = .next ((s.push (s.pc + 2) h).retire (addrOperand nnn)) := by
  obtain ⟨_, he⟩ | ⟨hfull, -⟩ := execCall_cases nnn s
  · exact he
  · exact absurd hfull h.ne

theorem encodeWord_call (nnn : BitVec 12) : encodeWord (.call nnn) = BitVec.ofNat 16 (0x2000 + nnn.toNat) := by
  have hword : (encodeWord (.call nnn)).toNat = 0x2000 + nnn.toNat := formatA_toNat 0x2 nnn
  rw [← hword, BitVec.ofNat_toNat, BitVec.setWidth_eq]

theorem exec_call_of_full (nnn : BitVec 12) {s : State} (h : s.sp.val = 16) :
    exec (.call nnn) s = .next (s.report .stackOverflow (BitVec.ofNat 16 (0x2000 + nnn.toNat))) := by
  obtain ⟨hlt, -⟩ | ⟨-, he⟩ := execCall_cases nnn s
  · exact absurd h hlt.ne
  · exact encodeWord_call nnn ▸ he

/-! ### The obligations -/

/-- Settles O29: with a live slot the return pops it, with none it reports. -/
theorem retPopsOrReportsUnderflow : Obligations.RetPopsOrReportsUnderflow := by
  refine fun s => ⟨spells_ret, fun k hk => ?pops, fun hzero => ⟨_, exec_ret_of_empty hzero, reported_report _ _ s⟩⟩
  have hpos : 0 < s.sp.val := hk ▸ Nat.succ_pos k.val
  have hsp : s.sp.val - 1 = k.val := Nat.sub_eq_of_eq_add hk
  have htop : (s.top hpos).toNat = (s.stack[k]).toNat := congrArg BitVec.toNat (State.top_eq hk hpos)
  exact ⟨_, exec_ret_of_pos hpos, hsp, endsAt_retire s.pop htop, sameExcept_of_overlay rfl⟩

/-- Settles O31: with a free slot the call writes it and jumps, with none it reports. -/
theorem callPushesOrReportsOverflow : Obligations.CallPushesOrReportsOverflow := by
  refine fun nnn s => ⟨spells_call nnn, fun k hk => ?pushes,
    fun hfull => ⟨_, exec_call_of_full nnn hfull, reported_report _ _ s⟩⟩
  have hlt : s.sp.val < 16 := hk ▸ k.isLt
  refine ⟨_, exec_call_of_lt nnn hlt, congrArg Nat.succ hk, fun j => ?slot, endsAt_retire _ (addrOperand_toNat nnn),
    sameExcept_of_overlay rfl⟩
  rw [State.retire_stack, State.stack_push, hk, apply_ite BitVec.toNat, pc_add_two]
  simp only [Fin.ext_iff]

/-- Settles O32: the return pops what the call pushed, and the push wrote no slot that was live. -/
theorem callThenReturnComesBack : Obligations.CallThenReturnComesBack := by
  intro nnn s hlt
  have hback := congrArg BitVec.toNat (s.top_retire_push (s.pc + 2) (addrOperand nnn) hlt)
  refine ⟨_, _, exec_call_of_lt nnn hlt, exec_ret_of_pos (Nat.succ_pos s.sp.val), rfl,
    endsAt_retire _ (hback.trans (pc_add_two s.pc)), sameExcept_of_overlay rfl, fun k hk => ?live⟩
  exact (s.stack_push _ hlt k).trans (if_neg hk.ne)

/-- Settles O30: both jumps retire to their target, which is a zero-extended `NNN` or the sum with `V0`. -/
theorem jumpsSetProgramCounter : Obligations.JumpsSetProgramCounter := by
  refine fun nnn s => ⟨⟨spells_jp nnn, _, rfl, ?jump, sameExcept_of_overlay rfl⟩,
    spells_jpV0 nnn, _, rfl, ?offset, sameExcept_of_overlay rfl⟩
  case jump => exact endsAt_retire s (addrOperand_toNat nnn)
  case offset => exact endsAt_retire s (jpV0_target_toNat (s.reg 0) nnn)

end Sys2Proof.Machine
end

section
/-! Family `42_skip.md`. What every conditional skip does, given the condition it tests; the key a register names; the six
skips. -/

namespace Sys2Proof.Machine

/-! ### A skip, taken or not -/

/-- An instruction whose meaning is to skip on `c` ends as a skip on what `c` decides, and writes only how the step ends. -/
theorem exec_skips {i : Instr} {s : State} {c : Bool} {p : Prop} (he : exec i s = .next (s.skipIf c)) (hc : c = true ↔ p) :
    ∃ t, exec i s = .next t ∧ SkippedIf p s t ∧ SameExcept [.pc, .fsm, .diag] s t :=
  ⟨s.skipIf c, he, skippedIf_skipIf hc, sameExcept_of_overlay rfl⟩

/-! ### The key a register names (R114) -/

theorem keyIndex_eq {b : Byte} {k : Reg} (h : b.toNat % 16 = k.val) : keyIndex b = k := Fin.ext h

theorem State.keyOperand_eq {s : State} {x k : Reg} (h : (s.reg x).toNat % 16 = k.val) : s.keyOperand x = s.key[k] := by
  simp only [State.keyOperand, keyIndex_eq h]

/-! ### The obligations -/

/-- Settles O33: the byte test decides equality with `NN`, and its negation the difference. -/
theorem skipsOnImmediate : Obligations.SkipsOnImmediate := fun x nn _ =>
  ⟨⟨spells_seImm x nn, exec_skips rfl beq_iff_eq⟩, spells_sneImm x nn, exec_skips rfl bne_iff_ne⟩

/-- Settles O34: the byte test decides equality of the two registers, and its negation the difference. -/
theorem skipsOnRegisters : Obligations.SkipsOnRegisters := fun x y _ =>
  ⟨⟨spells_seReg x y, exec_skips rfl beq_iff_eq⟩, spells_sneReg x y, exec_skips rfl bne_iff_ne⟩

/-- Settles O35: the flag tested is that of the key `VX mod 16`. -/
theorem skipsOnKey : Obligations.SkipsOnKey := by
  intro x k s hk
  have hkey : s.keyOperand x = s.key[k] := State.keyOperand_eq hk
  have hpressed : s.keyOperand x = true ↔ s.key[k] = true := by rw [hkey]
  have hreleased : (!s.keyOperand x) = true ↔ s.key[k] = false := by rw [hkey, Bool.not_eq_true']
  exact ⟨⟨spells_skp x, exec_skips rfl hpressed⟩, spells_sknp x, exec_skips rfl hreleased⟩

end Sys2Proof.Machine
end

section
/-! Family `43_alu.md`. What a register write does to the state, alone and followed by a flag, through any reading of the
registers; the results and flags as numbers; the register loads, the arithmetic, the logic and the random load. -/

namespace Sys2Proof.Machine

/-! ### An instruction that writes `VX`, or `VX` and then `VF`

`val` reads a register as the statement does: as a byte, a number, or an integer. -/

section
variable {i : Instr} {s : State} {x : Reg} {b : Byte}

/-- An instruction whose meaning is to write `VX` changes that register and how the step ends. -/
theorem exec_setsReg {α : Type} (val : Byte → α) {n : α} (he : exec i s = .next (s.setReg x b).advance) (hn : val b = n) :
    ∃ t, exec i s = .next t ∧ (∀ r, val (t.reg r) = if r = x then n else val (s.reg r)) ∧
      Advanced s t ∧ SameExcept [.v, .pc, .fsm, .diag] s t := by
  refine ⟨_, he, fun r => ?_, advanced_of_pc rfl, sameExcept_of_overlay rfl⟩
  rw [State.reg_advance, State.reg_setReg, apply_ite val, hn]

/-- The same, with the written register bit by bit. -/
theorem exec_setsReg_bits {f : Nat → Bool} (he : exec i s = .next (s.setReg x b).advance) (hf : ∀ k, b.getLsbD k = f k) :
    ∃ t, exec i s = .next t ∧ (∀ k, (t.reg x).getLsbD k = f k) ∧ (∀ r, r ≠ x → t.reg r = s.reg r) ∧
      Advanced s t ∧ SameExcept [.v, .pc, .fsm, .diag] s t := by
  obtain ⟨t, ht, hregs, hend⟩ := exec_setsReg (fun b => b) he rfl
  exact ⟨t, ht, fun k => by rw [hregs x, if_pos rfl, hf], fun r hr => (hregs r).trans (if_neg hr), hend⟩

/-- An instruction whose meaning is to write `VX` and then the flag changes those registers, with the flag in `VF` also where
`VX` is `VF` (`00_scope.md` R9), and how the step ends. -/
theorem exec_setsRegFlag {α : Type} (val : Byte → α) {f : Bool} {m n : α}
    (he : exec i s = .next (s.setRegFlag x b f).advance) (hm : val (flagByte f) = m) (hn : val b = n) :
    ∃ t, exec i s = .next t ∧ (∀ r, val (t.reg r) = if r = 15 then m else if r = x then n else val (s.reg r)) ∧
      Advanced s t ∧ SameExcept [.v, .pc, .fsm, .diag] s t := by
  refine ⟨_, he, fun r => ?_, advanced_of_pc rfl, sameExcept_of_overlay rfl⟩
  rw [State.reg_advance, State.reg_setRegFlag, apply_ite val, apply_ite val, hm, hn]
  rfl

end

/-! ### Results and flags as numbers (R120) -/

/-- A byte as an integer, in which a difference can be negative before it is reduced. -/
abbrev byteInt (b : Byte) : Int := b.toNat

theorem byteInt_sub (a b : Byte) : byteInt (a - b) = (a.toNat - b.toNat : Int) % 256 := by
  have hb : b.toNat < 256 := b.isLt
  rw [byteInt, BitVec.toNat_sub]
  omega

theorem byte_toNat_ushiftRight_one (a : Byte) : (a >>> 1).toNat = a.toNat / 2 := by
  rw [BitVec.toNat_ushiftRight, Nat.shiftRight_eq_div_pow]

theorem byte_toNat_shiftLeft_one (a : Byte) : (a <<< 1).toNat = a.toNat * 2 % 256 := by
  rw [BitVec.toNat_shiftLeft, Nat.shiftLeft_eq]

theorem flagByte_carryFlag (a b : Byte) :
    (flagByte (carryFlag a b)).toNat = if a.toNat + b.toNat > 255 then 1 else 0 := by
  simp only [flagByte_toNat, carryFlag, decide_eq_true_eq]

theorem flagByte_notBorrowFlag (a b : Byte) :
    byteInt (flagByte (notBorrowFlag a b)) = if b.toNat > a.toNat then 0 else 1 := by
  rw [byteInt, flagByte_toNat, notBorrowFlag]
  by_cases hborrow : b.toNat > a.toNat <;> simp [hborrow]

theorem flagByte_lowBitFlag (a : Byte) : (flagByte (lowBitFlag a)).toNat = a.toNat % 2 := by
  simp only [flagByte_toNat, lowBitFlag_eq, decide_eq_true_eq]
  split <;> omega

theorem flagByte_highBitFlag (a : Byte) : (flagByte (highBitFlag a)).toNat = a.toNat / 128 := by
  have ha : a.toNat < 256 := a.isLt
  simp only [flagByte_toNat, highBitFlag_eq, decide_eq_true_eq]
  split <;> omega

/-! ### The obligations -/

/-- Settles O36: each of the three writes `VX` alone. -/
theorem loadsAndAddImmediate : Obligations.LoadsAndAddImmediate := fun x y nn s =>
  ⟨⟨spells_ldImm x nn, exec_setsReg (fun b => b) rfl rfl⟩,
    ⟨spells_addImm x nn, exec_setsReg BitVec.toNat rfl (BitVec.toNat_add (s.reg x) nn)⟩,
    spells_ldReg x y, exec_setsReg (fun b => b) rfl rfl⟩

/-- Settles O37: each of the three writes `VX` alone, and the operation on bytes is the one on their bits. -/
theorem logicIsBitwise : Obligations.LogicIsBitwise := fun x y _ =>
  ⟨⟨spells_orReg x y, exec_setsReg_bits rfl fun _ => BitVec.getLsbD_or⟩,
    ⟨spells_andReg x y, exec_setsReg_bits rfl fun _ => BitVec.getLsbD_and⟩,
    spells_xorReg x y, exec_setsReg_bits rfl fun _ => BitVec.getLsbD_xor⟩

/-- Settles O38: the sum is written, then the carry. -/
theorem addRegisterSetsCarry : Obligations.AddRegisterSetsCarry := fun x y s =>
  ⟨spells_addReg x y, exec_setsRegFlag BitVec.toNat rfl (flagByte_carryFlag _ _) (BitVec.toNat_add (s.reg x) (s.reg y))⟩

/-- Settles O39: the difference, of either order, is written, then its NOT borrow. -/
theorem subtractsSetNotBorrow : Obligations.SubtractsSetNotBorrow := fun x y s =>
  ⟨⟨spells_sub x y, exec_setsRegFlag byteInt rfl (flagByte_notBorrowFlag _ _) (byteInt_sub (s.reg x) (s.reg y))⟩,
    spells_subn x y, exec_setsRegFlag byteInt rfl (flagByte_notBorrowFlag _ _) (byteInt_sub (s.reg y) (s.reg x))⟩

/-- Settles O40: the shifted byte is written, then the bit shifted out; neither reads `VY`. -/
theorem shiftsSetBitOut : Obligations.ShiftsSetBitOut := fun x y s =>
  ⟨⟨spells_shr x y,
      exec_setsRegFlag BitVec.toNat rfl (flagByte_lowBitFlag _) (byte_toNat_ushiftRight_one (s.reg x))⟩,
    spells_shl x y,
      exec_setsRegFlag BitVec.toNat rfl (flagByte_highBitFlag _) (byte_toNat_shiftLeft_one (s.reg x))⟩

/-- Settles O41: the draw number `draws` is masked into `VX`, and the counter goes on. -/
theorem randomIsMaskedFreshByte : Obligations.RandomIsMaskedFreshByte := by
  refine fun x nn s => ⟨spells_rnd x nn, _, rfl, rfl, fun k => ?masked, fun r hr => ?kept, advanced_of_pc rfl,
    sameExcept_of_overlay rfl⟩
  case masked => rw [State.rndWith, State.reg_advance, State.reg_setReg, if_pos rfl, BitVec.getLsbD_and]
  case kept => exact (State.reg_setReg _ x r _).trans (if_neg hr)

end Sys2Proof.Machine
end

section
/-! Family `44_index_memory.md`. The writes of `I`, alone and with the overflow flag; the bytes that a list written at `I` leaves
at `I + k` and elsewhere; the registers stored and loaded, and the two in turn. -/

namespace Sys2Proof.Machine

/-! ### The address register (R140 to R142) -/

/-- An instruction whose meaning is to write an address to `I` changes `I` and how the step ends. -/
theorem exec_setsI {i : Instr} {s : State} {n : Nat} (he : exec i s = .next (s.setI n).advance) (hn : n < 4096) :
    ∃ t, exec i s = .next t ∧ t.i.toNat = n ∧ Advanced s t ∧ SameExcept [.i, .pc, .fsm, .diag] s t :=
  ⟨_, he, (s.setI_toNat n).trans (Nat.mod_eq_of_lt hn), advanced_of_pc rfl, sameExcept_of_overlay rfl⟩

theorem flagByte_idxOverflowFlag (i : Word) (b : Byte) :
    (flagByte (idxOverflowFlag i b)).toNat = if i.toNat + b.toNat > 0xFFF then 1 else 0 := by
  simp only [flagByte_toNat, idxOverflowFlag, decide_eq_true_eq]

/-! ### A list of bytes written at `I` (R143, R144) -/

/-- Byte `k` of the list is at `I + k`, also where the range wraps. -/
theorem State.memRead_memWriteList_effAddr (s : State) {bs : List Byte} (hlen : bs.length ≤ 4096) {k : Nat}
    (hk : k < bs.length) : (s.memWriteList (s.effAddr 0) bs).memRead (s.effAddr k) = bs[k] :=
  State.memRead_memWriteList_at s (s.effAddr 0) k bs hlen hk

/-- Every cell that is none of `I + k` keeps its byte. -/
theorem State.memRead_memWriteList_of_ne_effAddr (s : State) {bs : List Byte} {a : Nat}
    (h : ∀ k < bs.length, memIndex a ≠ memIndex (s.effAddr k)) :
    (s.memWriteList (s.effAddr 0) bs).memRead a = s.memRead a :=
  State.memRead_memWriteList_other s (s.effAddr 0) a bs h

/-- Each digit fits the byte it is stored in. -/
theorem bcdDigits_toNat (b : Byte) :
    (bcdDigits b).map BitVec.toNat = [b.toNat / 100, b.toNat / 10 % 10, b.toNat % 10] := by
  have hb : b.toNat < 256 := b.isLt
  have hhundreds : b.toNat / 100 % 2 ^ 8 = b.toNat / 100 := by omega
  have htens : b.toNat / 10 % 10 % 2 ^ 8 = b.toNat / 10 % 10 := by omega
  have hones : b.toNat % 10 % 2 ^ 8 = b.toNat % 10 := by omega
  simp only [bcdDigits, List.map_cons, List.map_nil, BitVec.toNat_ofNat, hhundreds, htens, hones]

/-- The digit `k` of `VX`, as the number it is, is what `FX33` leaves at `I + k`. -/
theorem State.memRead_memWriteList_bcdDigits (s : State) (b : Byte) {k : Nat} (hk : k < 3) :
    ((s.memWriteList (s.effAddr 0) (bcdDigits b)).memRead (s.effAddr k)).toNat =
      [b.toNat / 100, b.toNat / 10 % 10, b.toNat % 10][k] := by
  have hbyte := s.memRead_memWriteList_effAddr (bs := bcdDigits b) (by decide : 3 ≤ 4096) hk
  simp only [hbyte, ← bcdDigits_toNat]
  exact (List.getElem_map BitVec.toNat).symm

/-! ### The obligations -/

/-- Settles O42: both write an address below 4096 to `I`, the largest glyph address being 5 * 255. -/
theorem indexLoads : Obligations.IndexLoads := by
  intro nnn x s
  have hglyph : 5 * (s.reg x).toNat < 4096 := by have := (s.reg x).isLt; omega
  exact ⟨⟨spells_ldIdx nnn, exec_setsI rfl nnn.isLt⟩, spells_ldF x, exec_setsI rfl hglyph⟩

/-- Settles O43: the sum is reduced into `I`, and the flag is taken from the sum before it is reduced. -/
theorem indexAddWrapsAndFlags : Obligations.IndexAddWrapsAndFlags := by
  refine fun x s => ⟨spells_addIdx x, _, rfl, s.setI_toNat _, fun r => ?regs, advanced_of_pc rfl, sameExcept_of_overlay rfl⟩
  rw [State.reg_advance, State.reg_setFlag, apply_ite BitVec.toNat, flagByte_idxOverflowFlag]
  rfl

/-- Settles O44: the three digits are a list written at `I`. -/
theorem decimalDigitsAreStored : Obligations.DecimalDigitsAreStored := by
  intro x s
  have hdigit := fun k hk => s.memRead_memWriteList_bcdDigits (s.reg x) (k := k) hk
  exact ⟨spells_ldB x, _, rfl, hdigit 0 (by decide), hdigit 1 (by decide), hdigit 2 (by decide),
    fun a ha => s.memRead_memWriteList_of_ne_effAddr ha, advanced_of_pc (State.memWriteList_pc s _ _),
    of_eq_next rfl (exec_frame (.ldB x) s)⟩

/-- Settles O45: the registers up to `VX` are a list written at `I`. -/
theorem registersAreStored : Obligations.RegistersAreStored := by
  refine fun x s => ⟨spells_stRegs x, _, rfl, of_eq_next rfl (exec_stRegs_stores x s), fun a ha => ?other,
    s.setI_toNat _, advanced_of_pc (u := State.setI _ _) (State.memWriteList_pc s _ _),
    of_eq_next rfl (exec_frame (.stRegs x) s)⟩
  refine s.memRead_memWriteList_of_ne_effAddr fun k hk => ?_
  rw [State.regsUpTo_length] at hk
  exact ha ⟨k, hk.trans_le x.isLt⟩ (Nat.le_of_lt_succ hk)

/-- Settles O46: the registers up to `VX` are set from the bytes at `I + k`. -/
theorem registersAreLoaded : Obligations.RegistersAreLoaded := by
  refine fun x s => ⟨spells_ldRegs x, _, rfl, fun r => ?regs, s.setI_toNat _, advanced_of_pc rfl,
    sameExcept_of_overlay rfl⟩
  have hget := regsSetBelow_get s.v (fun k => s.memRead (s.effAddr k)) (x.val + 1) x.isLt r.val r.isLt
  simp only [Nat.lt_succ_iff] at hget
  exact hget

/-- Settles O47: the load reads, from the same `I` and the same memory, the bytes that the store left there. -/
theorem storeThenLoadRestoresRegisters : Obligations.StoreThenLoadRestoresRegisters := by
  intro x s t u ht hu hi
  obtain ⟨-, hstore⟩ := registersAreStored x s
  obtain ⟨hstored, -, hti, -⟩ := of_eq_next ht hstore
  obtain ⟨-, w, hw, hloaded, hwi, -⟩ := registersAreLoaded x u
  have hmem : ∀ a, u.memRead a = t.memRead a := hu .mem (by decide)
  have haddr : ∀ k, u.effAddr k = s.effAddr k := fun k => by rw [State.effAddr, State.effAddr, hi]
  refine ⟨w, hw, BitVec.eq_of_toNat_eq ?index, fun r => ?regs⟩
  case index => rw [hwi, hti, hi]
  case regs =>
    rw [hloaded r]
    split_ifs with hr
    · rw [hmem, haddr, hstored r hr]
    · rfl

end Sys2Proof.Machine
end

section
/-! Family `45_display.md`. The pixels the blitter visits are those the sprite covers; what a draw does to each pixel and when it
tells a collision; the clear, one draw, and the same draw twice. -/

namespace Sys2Proof.Machine

/-! ### The pixels under a sprite (R151) -/

/-- The blitter visits the pixels that the sprite covers, each coordinate reduced on its own. -/
theorem mem_spritePoints_iff_spriteCovers {s : State} {x y : Reg} {n : Nat} {px : Fin 64} {py : Fin 32} :
    (px, py) ∈ spritePoints (s.reg x).toNat (s.reg y).toNat s.spriteRow n ↔ SpriteCovers s x y n px py := by
  have hcol : ∀ x0 col, pixelColumn x0 col = px ↔ px.val = (x0 + col) % 64 := fun _ _ => Fin.ext_iff.trans eq_comm
  have hrow : ∀ y0 r, pixelRow y0 r = py ↔ py.val = (y0 + r) % 32 := fun _ _ => Fin.ext_iff.trans eq_comm
  simp only [mem_spritePoints, hcol, hrow, SpriteCovers, spriteBit, State.spriteRow, and_comm, and_left_comm]

/-- Which pixels a sprite covers depends on the coordinates, `I` and memory alone. -/
theorem spriteCovers_congr {s t : State} {x y : Reg} (hx : t.reg x = s.reg x) (hy : t.reg y = s.reg y) (hi : t.i = s.i)
    (hmem : ∀ a, t.memRead a = s.memRead a) (n : Nat) : SpriteCovers t x y n = SpriteCovers s x y n := by
  funext px py
  simp only [SpriteCovers, State.effAddr, hx, hy, hi, hmem]

/-! ### One draw (R151) -/

/-- The framebuffer after `DXYN` and whether the draw met a pixel that was 1. -/
abbrev State.drawn (s : State) (x y : Reg) (n : Nat) : Frame × Bool :=
  drawSprite (s.reg x).toNat (s.reg y).toNat s.spriteRow n (s.fb, false)

section
variable {s : State} {x y : Reg} {n : Nat} (hn : n ≤ 32)
include hn

theorem State.drawn_pixel_of_covers {px : Fin 64} {py : Fin 32} (h : SpriteCovers s x y n px py) :
    (s.drawn x y n).1.pixel px py = !s.fb.pixel px py := by
  rw [drawSprite_pixel _ _ _ hn, decide_eq_true (mem_spritePoints_iff_spriteCovers.2 h), Bool.xor_true]

theorem State.drawn_pixel_of_not_covers {px : Fin 64} {py : Fin 32} (h : ¬SpriteCovers s x y n px py) :
    (s.drawn x y n).1.pixel px py = s.fb.pixel px py := by
  rw [drawSprite_pixel _ _ _ hn, decide_eq_false (mt mem_spritePoints_iff_spriteCovers.1 h), Bool.xor_false]

theorem State.drawn_hit_iff :
    (s.drawn x y n).2 = true ↔ ∃ px py, SpriteCovers s x y n px py ∧ s.fb.pixel px py = true := by
  simp only [drawSprite_hit _ _ _ hn, List.any_eq_true, Prod.exists, mem_spritePoints_iff_spriteCovers]

end

/-! ### The obligations -/

/-- Settles O50: the pixels by the closed form of the blitter, `VF` by its collision flag. -/
theorem drawTogglesSpritePixels : Obligations.DrawTogglesSpritePixels := by
  intro x y n s hn
  have hrows : n ≤ 32 := by omega
  refine ⟨spells_drw x y n hn, _, rfl,
    fun px py => ⟨State.drawn_pixel_of_covers hrows, State.drawn_pixel_of_not_covers hrows⟩, fun hhit => ?hit,
    fun hmiss => ?miss, fun r hr => ?kept, rfl, advanced_of_pc rfl, sameExcept_of_overlay rfl⟩
  case hit => exact (State.reg_setFlag _ 15 _).trans (congrArg flagByte ((State.drawn_hit_iff hrows).2 hhit))
  case miss =>
    have hnone : ¬(s.drawn x y n).2 = true := fun hhit => by
      obtain ⟨px, py, hcov, hset⟩ := (State.drawn_hit_iff hrows).1 hhit
      exact Bool.false_ne_true ((hmiss px py hcov).symm.trans hset)
    exact (State.reg_setFlag _ 15 _).trans (congrArg flagByte (Bool.eq_false_of_not_eq_true hnone))
  case kept => exact (State.reg_setFlag _ r _).trans (if_neg hr)

/-- Settles O51: the first draw leaves the coordinates, `I` and memory, so the second covers the same pixels and finds each of
them toggled. -/
theorem drawTwiceRestoresFramebuffer : Obligations.DrawTwiceRestoresFramebuffer := by
  intro x y n s t hn hx hy ht
  obtain ⟨-, hdraw⟩ := drawTogglesSpritePixels x y n s hn
  obtain ⟨htpix, -, -, htreg, -, -, htsame⟩ := of_eq_next ht hdraw
  obtain ⟨-, u, hu, hupix, huone, huzero, -, hudirty, -⟩ := drawTogglesSpritePixels x y n t hn
  rw [spriteCovers_congr (htreg x hx) (htreg y hy) (htsame .i (by decide)) (htsame .mem (by decide))] at hupix huone huzero
  refine ⟨u, hu, fun px py => ?pixels, hudirty, ?flag⟩
  case pixels =>
    by_cases hcov : SpriteCovers s x y n px py
    · rw [(hupix px py).1 hcov, (htpix px py).1 hcov, Bool.not_not]
    · rw [(hupix px py).2 hcov, (htpix px py).2 hcov]
  case flag =>
    by_cases hclear : ∃ px py, SpriteCovers s x y n px py ∧ s.fb.pixel px py = false
    · have hone : u.reg 15 = 1 := by
        obtain ⟨px, py, hcov, hpix⟩ := hclear
        exact huone ⟨px, py, hcov, by rw [(htpix px py).1 hcov, hpix, Bool.not_false]⟩
      exact ⟨iff_of_true hone hclear, .inr hone⟩
    · have hzero : u.reg 15 = 0 := huzero fun px py hcov => by
        rw [(htpix px py).1 hcov, Bool.not_eq_false']
        by_contra hpix
        exact hclear ⟨px, py, hcov, Bool.eq_false_of_not_eq_true hpix⟩
      exact ⟨iff_of_false (by rw [hzero]; decide) hclear, .inl hzero⟩

/-- Settles O49: every pixel of the clear framebuffer is 0. -/
theorem clearScreen : Obligations.ClearScreen := fun _ =>
  ⟨spells_cls, _, rfl, Frame.pixel_clear, rfl, advanced_of_pc rfl, sameExcept_of_overlay rfl⟩

end Sys2Proof.Machine
end

section
/-! Family `46_timer_key.md`. What `FX0A` does with a given least pressed key, that key read back as a number; the key wait and
the three timer moves. -/

namespace Sys2Proof.Machine

/-! ### The key wait, where a key is pressed (R161) -/

/-- With `k` the least pressed key `FX0A` writes `k` to `VX`. -/
theorem exec_ldVxK_of_least {x k : Reg} {s : State} (hk : s.key[k] = true) (hleast : ∀ j : Reg, j < k → s.key[j] = false) :
    exec (.ldVxK x) s = .next (s.setReg x (BitVec.ofNat 8 k.val)).advance :=
  execLdVxK_of_some ((s.leastKey_some k).2 ⟨hk, hleast⟩)

/-- The number of a key fits the register it is written to. -/
theorem keyNumber_toNat (k : Reg) : (BitVec.ofNat 8 k.val : Byte).toNat = k.val :=
  (BitVec.toNat_ofNat k.val 8).trans (Nat.mod_eq_of_lt (Nat.lt_trans k.isLt (by decide)))

/-! ### The obligations -/

/-- Settles O53: with no key pressed the step waits, else it writes the number of the least pressed key to `VX` alone. -/
theorem keyWaitTakesLeastKey : Obligations.KeyWaitTakesLeastKey := by
  refine fun x s => ⟨spells_ldVxK x, fun hnone => ?waits, fun k hk hleast => ?takes⟩
  case waits => exact ⟨s.await, exec_of_waitsForKey ⟨⟨x, rfl⟩, hnone⟩, rfl, rfl, rfl, s.sameExcept_await⟩
  case takes => exact exec_setsReg BitVec.toNat (exec_ldVxK_of_least hk hleast) (keyNumber_toNat k)

/-- Settles O52: `FX07` writes `VX` alone; `FX15` and `FX18` write their timer and how the step ends. -/
theorem timerMoves : Obligations.TimerMoves := fun x _ =>
  ⟨⟨spells_ldVxDt x, exec_setsReg (fun b => b) rfl rfl⟩,
    ⟨spells_ldDtVx x, _, rfl, rfl, advanced_of_pc rfl, sameExcept_of_overlay rfl⟩,
    spells_ldStVx x, _, rfl, rfl, advanced_of_pc rfl, sameExcept_of_overlay rfl⟩

end Sys2Proof.Machine
end

section
/-! Family `60_exceptions.md`. Which instructions report and what the report is; the parts a step leaves, and when it sets `DIRTY`;
the timer tick, the key write and the rendering interface. -/

namespace Sys2Proof.Machine

/-! ### What is reported (R170, R174) -/

/-- An instruction whose row of R174 applies makes the report of its own word, and nothing else. -/
theorem exec_of_instrReports {i : Instr} {s : State} {kind : DiagKind} (h : instrReports i s = some kind) :
    exec i s = .next (s.report kind (encodeWord i)) := by
  cases i with
  | ret =>
    obtain ⟨hempty, hkind⟩ := Option.ite_none_right_eq_some.1 h
    obtain rfl := Option.some.inj hkind
    exact exec_ret_of_empty hempty
  | call nnn =>
    obtain ⟨hfull, hkind⟩ := Option.ite_none_right_eq_some.1 h
    obtain rfl := Option.some.inj hkind
    exact encodeWord_call nnn ▸ exec_call_of_full nnn hfull
  | _ => exact nomatch h

/-- An instruction whose row of R174 does not apply reports nothing. -/
theorem exec_diag_of_instrReports_none {i : Instr} {s t : State} (h : instrReports i s = none) (ht : exec i s = .next t) :
    t.diag = none := by
  obtain ⟨-, hdiag⟩ := of_eq_next ht (exec_pcAfter i s)
  exact Option.map_eq_none_iff.1 (hdiag.trans h)

/-! ### What a step leaves unchanged (R183, R184) -/

/-- A step leaves every part that neither a report nor its instruction may write. -/
theorem step_same {s t : State} {p : Part} (h : step s = .next t) (hreport : p ∉ [.pc, .fsm, .diag, .reported])
    (hinstr : ∀ i, decodeWord s.fetchWord = .ok i → p ∉ mayWrite i) : p.Same s t := by
  obtain ⟨i, hi, hs⟩ | ⟨_, -, hs⟩ := step_cases s
  · exact of_eq_next (hs.symm.trans h) (exec_frame i s) p (hinstr i hi)
  · obtain ⟨-, -, -, hframe⟩ := of_eq_next h ⟨_, hs, reported_report .unknownOpcode s.fetchWord s⟩
    exact hframe p hreport

/-- After a step `DIRTY` is 1 exactly when it was, or the step ran an instruction that sets it. -/
theorem step_dirty_iff {s t : State} (h : step s = .next t) : t.dirty = true ↔ s.dirty = true ∨
    decodeWord s.fetchWord = .ok .cls ∨ ∃ x y n, decodeWord s.fetchWord = .ok (.drw x y n) := by
  by_cases hsets : ∃ i, decodeWord s.fetchWord = .ok i ∧ .dirty ∈ mayWrite i
  · obtain ⟨i, hi, hmem⟩ := hsets
    have hrow := dirty_mem_mayWrite.1 hmem
    have hset : t.dirty = true := dirty_of_cls_or_drw ((step_of_decodeWord hi).symm.trans h) hrow
    exact iff_of_true hset (.inr (by simpa only [hi, Except.ok.injEq] using hrow))
  · have hkept : t.dirty = s.dirty := step_same (p := .dirty) h (by decide) fun i hi hmem => hsets ⟨i, hi, hmem⟩
    have hneither : ¬(decodeWord s.fetchWord = .ok .cls ∨ ∃ x y n, decodeWord s.fetchWord = .ok (.drw x y n)) := by
      rintro (hi | ⟨x, y, n, hi⟩)
      · exact hsets ⟨_, hi, dirty_mem_mayWrite.2 (.inl rfl)⟩
      · exact hsets ⟨_, hi, dirty_mem_mayWrite.2 (.inr ⟨x, y, n, rfl⟩)⟩
    rw [hkept, or_iff_left hneither]

/-! ### The host's operations (R181, R184) -/

/-- A timer lowered by 1 and floored at 0, as a number. -/
theorem floorDecrement_toNat (b : Byte) : (if b = 0 then 0 else b - 1).toNat = b.toNat - 1 := by
  split
  · next hzero => rw [hzero]; rfl
  · next hne => bv_omega

/-- Pixel `(x, y)` in the linear order of `10_state.md` R28. -/
theorem State.framePixel_eq (s : State) {x : Fin 64} {y : Fin 32} {n : Fin 2048} (hn : n.val = y.val * 64 + x.val) :
    s.framePixel n = s.fb.pixel x y := by
  have hx : n.val % 64 = x.val := by omega
  have hy : n.val / 64 = y.val := by omega
  simp only [State.framePixel, hx, hy]

/-! ### The obligations -/

/-- Settles O23: an unknown word and an instruction with a row in R174 are reports, and any other instruction makes none. -/
theorem diagnosticOfAStep : Obligations.DiagnosticOfAStep := by
  refine ⟨⟨rfl, rfl, rfl⟩, fun s => ?_⟩
  obtain ⟨t, ht⟩ := step_answers s
  refine ⟨t, ht, fun e he => ?unknown, fun i kind hi hkind => ?reports, fun i hi hnone => ?silent⟩
  case unknown =>
    have hs := step_of_unknown (s := s) (by rw [he]; exact fun _ => nofun)
    exact of_eq_next ht ⟨_, hs, reported_report _ _ s⟩
  case reports =>
    obtain ⟨-, hword⟩ := encodeWord_of_decodeWord hi
    have hs := (step_of_decodeWord hi).trans (exec_of_instrReports hkind)
    exact of_eq_next ht ⟨_, hs, hword ▸ reported_report _ _ s⟩
  case silent => exact exec_diag_of_instrReports_none hnone ((step_of_decodeWord hi).symm.trans ht)

/-- Settles O19: the step is the report of the fetched word. -/
theorem unknownOpcodeIsReported : Obligations.UnknownOpcodeIsReported := fun s h =>
  ⟨_, step_of_unknown h, reported_report .unknownOpcode s.fetchWord s⟩

/-- Settles O5: the clear and the read by definition, the linear order by division with remainder, and `DIRTY` after a step by
the instructions that may write it. -/
theorem dirtyClearAndFrameRead : Obligations.DirtyClearAndFrameRead := fun s =>
  ⟨⟨s.dirtyClear, rfl, rfl, sameExcept_of_overlay rfl⟩, fun _ _ => rfl, rfl, fun _ _ _ => s.framePixel_eq,
    fun _ => step_dirty_iff⟩

/-- Settles O3: each timer is lowered on its own. -/
theorem tickLowersBothTimers : Obligations.TickLowersBothTimers := fun s =>
  ⟨s.tick, rfl, floorDecrement_toNat s.dt, floorDecrement_toNat s.st, sameExcept_of_overlay rfl⟩

/-- Settles O4: one flag is replaced, and `KEY` is in no instruction's row of `mayWrite`. -/
theorem keyWriteChangesOneKey : Obligations.KeyWriteChangesOneKey := by
  refine fun s k b => ⟨⟨s.keyWrite k b, rfl, fun j => ?flag, sameExcept_of_overlay rfl⟩,
    fun t ht => step_same (p := .key) ht (by decide) fun i _ => key_notMem_mayWrite i⟩
  simp only [State.keyWrite, Fin.getElem_fin, Vector.getElem_set, Fin.ext_iff, eq_comm]

end Sys2Proof.Machine
end

section
/-! Family `70_reset_and_hazards.md`, and the model's own report mark. Two resets in a row; which images a load accepts and what
it leaves in memory; when the mark is set, and that nothing clears it. -/

namespace Sys2Proof.Machine

/-! ### The reset (R201) -/

/-- A reset keeps of the state before it only the model's mark and counter, which it keeps as they are. -/
theorem State.hostReset_hostReset (s : State) : s.hostReset.hostReset = s.hostReset := rfl

/-! ### The load (R205, R206) -/

/-- An image within the capacity, which with `LOAD_RESERVED = 0` is 3584 bytes, is written to the program start. -/
theorem State.load_of_le (s : State) {bytes : List Byte} (h : bytes.length ≤ 3584) :
    s.load (some bytes) = .ok (s.memWriteList 0x200 bytes) :=
  if_neg (Nat.not_lt.2 h)

theorem State.load_of_gt (s : State) {bytes : List Byte} (h : 3584 < bytes.length) :
    s.load (some bytes) = .error .exceedsCapacity :=
  if_pos h

theorem run_load_of_ok {image : Option (List Byte)} {s t : State} (h : s.load image = .ok t) :
    Op.run (.load image) s = .next t := by
  rw [Op.run, h]

theorem run_load_of_error {image : Option (List Byte)} {s : State} {e : LoadError} (h : s.load image = .error e) :
    Op.run (.load image) s = .next s := by
  rw [Op.run, h]

/-- Writing a list of bytes changes memory alone. -/
theorem State.sameExcept_memWriteList (s : State) (a : Nat) (bs : List Byte) : SameExcept [.mem] s (s.memWriteList a bs) := by
  rw [State.memWriteList_eq]
  exact sameExcept_of_overlay rfl

/-- Where the bytes written do not run past the end of memory, no address wraps: a cell that is none of theirs keeps its byte. -/
theorem State.memRead_memWriteList_of_ne (s : State) {a c : Nat} {bs : List Byte} (hend : a + bs.length ≤ 4096)
    (hc : c < 4096) (h : ∀ k < bs.length, c ≠ a + k) : (s.memWriteList a bs).memRead c = s.memRead c := by
  refine State.memRead_memWriteList_other s a c bs fun k hk => ?_
  have hak : a + k < 4096 := by omega
  rw [memIndex, memIndex, Nat.mod_eq_of_lt hc, Nat.mod_eq_of_lt hak]
  exact h k hk

/-! ### The report mark (log entry 4) -/

/-- An instruction sets the mark exactly when it hands out a diagnostic: a return from the empty stack and a call on the full
one end in a report, every other path in an ending that leaves the mark and hands out nothing. -/
theorem exec_reported (i : Instr) (s : State) :
    ∃ t, exec i s = .next t ∧ t.reported = (s.reported || t.diag.isSome) := by
  have silent : s.reported = (s.reported || (none : Option Diagnostic).isSome) := (Bool.or_false _).symm
  cases i with
  | ret =>
    obtain ⟨_, h⟩ | ⟨-, h⟩ := execRet_cases s
    · exact ⟨_, h, silent⟩
    · exact ⟨_, h, (Bool.or_true _).symm⟩
  | call nnn =>
    obtain ⟨_, h⟩ | ⟨-, h⟩ := execCall_cases nnn s
    · exact ⟨_, h, silent⟩
    · exact ⟨_, h, (Bool.or_true _).symm⟩
  | ldVxK x => obtain ⟨-, h⟩ | ⟨_, -, h⟩ := execLdVxK_cases x s <;> exact ⟨_, h, silent⟩
  | ldB x | stRegs x => exact ⟨_, rfl, (State.memWriteList_reported ..).trans silent⟩
  | _ => exact ⟨_, rfl, silent⟩

/-- A step sets the mark exactly when it hands out a diagnostic. -/
theorem step_reported {s t : State} (h : step s = .next t) : t.reported = (s.reported || t.diag.isSome) := by
  obtain ⟨i, -, hs⟩ | ⟨_, -, hs⟩ := step_cases s
  · exact of_eq_next (hs.symm.trans h) (exec_reported i s)
  · obtain rfl := Host.Outcome.next.inj (hs.symm.trans h)
    exact (Bool.or_true _).symm

/-- Of the operations only the step writes the mark. -/
theorem run_reported_of_ne_step {o : Op} (ho : o ≠ .step) (s : State) :
    ∃ t, o.run s = .next t ∧ t.reported = s.reported := by
  cases o with
  | step => exact absurd rfl ho
  | load image =>
    obtain ⟨bytes, hl⟩ | hl := load_cases image s
    · exact ⟨_, hl, State.memWriteList_reported ..⟩
    · exact ⟨_, hl, rfl⟩
  | reset | tick | keyWrite _ _ | dirtyClear => exact ⟨_, rfl, rfl⟩

/-! ### The obligations -/

/-- Settles O6: at most 3584 bytes from 0x200 end inside memory, so each is at its own address and no other cell is written. -/
theorem loadWritesImageOrRejects : Obligations.LoadWritesImageOrRejects := by
  refine fun s bytes => ⟨fun hle => ?accepts, fun hgt => ?rejects, rfl, rfl⟩
  case accepts =>
    have hend : 0x200 + bytes.length ≤ 4096 := by omega
    have hok := s.load_of_le hle
    exact ⟨_, hok, run_load_of_ok hok, fun k => State.memRead_memWriteList_at s 0x200 k bytes (by omega),
      fun a => s.memRead_memWriteList_of_ne hend, s.sameExcept_memWriteList 0x200 bytes⟩
  case rejects =>
    have herror := s.load_of_gt hgt
    exact ⟨herror, run_load_of_error herror⟩

/-- Settles O2: the state is the one the first reset left. -/
theorem resetIsIdempotent : Obligations.ResetIsIdempotent := fun s =>
  ⟨s.hostReset, rfl, congrArg Host.Outcome.next s.hostReset_hostReset⟩

/-- Settles O24: a step sets the mark by its diagnostic and so never clears it, and the host's operations do not write it. -/
theorem reportMarkIsSticky : Obligations.ReportMarkIsSticky := by
  refine ⟨fun s t => step_reported, fun o s t ht hmark => ?sticky⟩
  by_cases ho : o = .step
  · subst ho
    rw [step_reported ht, hmark, Bool.true_or]
  · exact (of_eq_next ht (run_reported_of_ne_step ho s)).trans hmark

end Sys2Proof.Machine
end
